-- ==== Sys2Proof/Word.lean ====
section
/-! DEFINITION. The bit-vector types of the DES core and nothing else: every value is an unsigned vector of a stated
width (00_scope.md R9). The byte-order and bit-position helpers are in Machine/Ops.lean and Machine/Permute.lean. -/

namespace Sys2Proof

/-- One byte of the buffer memory (20_memory.md R50). -/
abbrev Byte := BitVec 8

/-- A 64-bit key, initialization vector or block (00_scope.md R6). -/
abbrev Block := BitVec 64

/-- A 32-bit half-block, L or R (43_block_core.md R160). -/
abbrev Half := BitVec 32

/-- A 28-bit half of the permuted key, C or D (41_key_schedule.md R120). -/
abbrev KeyHalf := BitVec 28

/-- A 48-bit round subkey (10_state.md R25). -/
abbrev Subkey := BitVec 48

/-- The cipher context: K[1] .. K[16] in round order, K[i] at index i - 1 (10_state.md R25). -/
abbrev Subkeys := Vector Subkey 16

/-- An 8-bit command word (30_encoding.md R71). -/
abbrev CommandWord := BitVec 8

/-- The 8-bit STATUS register, read whole by the host (10_state.md R28). -/
abbrev Status := BitVec 8

/-- The container of an AW-bit register SRC, DST or LEN; 4 ≤ AW ≤ 64 (00_scope.md R7, log 7). -/
abbrev AddrReg := BitVec 64

end Sys2Proof
end

