-- ==== Sys2Proof/Config.lean ====
section
/-! DEFINITION. What an implementation fixes (00_scope.md R7: AW, MEM_ADMIT, LEN_POLICY), the values a reset leaves
unspecified (10_state.md R38), and what a byte of memory that nothing has written reads as. -/

namespace Sys2Proof

/-- What a buffer command does with a LEN that is not a multiple of 8 (44_chaining_modes.md R183). -/
inductive LenPolicy
  | reject
  | truncate
  deriving DecidableEq, Repr

/-- MEM_ADMIT as plain data (00_scope.md R7, log 17): every address, or those of finitely many ranges, each a base and a
size in bytes. -/
inductive AdmitMap
  | all
  | ranges (rs : List (Nat × Nat))
  deriving DecidableEq, Repr

/-- The parameters the spec leaves to the implementation and the model takes as an argument (00_scope.md R7). -/
structure Config where
  aw        : Nat
  memAdmit  : AdmitMap
  lenPolicy : LenPolicy
  deriving DecidableEq, Repr

/-- The defaults of 00_scope.md R7. -/
def Config.default : Config := { aw := 32, memAdmit := .all, lenPolicy := .reject }

/-- FREE VALUE (10_state.md R38, 70_reset_and_hazards.md R250, R257; log 2): what the register of number reg (R76) holds
after the Reset action number draw, old being what it held before. It has no body: nothing is known of it. -/
opaque Config.unspecified (draw : Nat) (reg : Nat) (old : BitVec 64) : BitVec 64

/-- What an address that the memory does not list reads as. DESIGN CHOICE (unsafe, log 3): the spec gives the buffer
memory no initial contents. -/
def Config.unlistedByte : Byte := 0x00#8

end Sys2Proof
end

