-- ==== Sys2Proof/Syntax.lean ====
section
/-! DEFINITION. The seven commands, the fields of a command word, the registers by name, the host's actions and what they
return, and the lines of the host script. -/

namespace Sys2Proof

/-- The commands: one constructor per row of spec/opcode_table.json; no operand fields (30_encoding.md R71, R72). -/
inductive Instr
  /-- Builds the cipher context from KEY (R126). -/
  | init
  /-- Encrypts DIN into DOUT (R165). -/
  | encb
  /-- Decrypts DIN into DOUT (R166). -/
  | decb
  /-- Encrypts a buffer in ECB mode (R186). -/
  | ecbe
  /-- Decrypts a buffer in ECB mode (R187). -/
  | ecbd
  /-- Encrypts a buffer in CBC mode (R190). -/
  | cbce
  /-- Decrypts a buffer in CBC mode (R193). -/
  | cbcd
  deriving DecidableEq, Repr

/-- The subkey traversal order that the DIR bit selects (30_encoding.md R73). -/
inductive Dir
  | enc
  | dec
  deriving DecidableEq, Repr

/-- The assigned operation classes of the OP field (30_encoding.md R71). -/
inductive OpClass
  | init
  | blk
  | ecb
  | cbc
  deriving DecidableEq, Repr

/-- The three fields of a command word: ZERO [7:4], OP [3:1], DIR [0] (30_encoding.md R71). -/
structure CmdFields where
  zero : BitVec 4
  op   : BitVec 3
  dir  : BitVec 1
  deriving DecidableEq, Repr

/-- The registers that have a register number (30_encoding.md R76); subkey i is K[i + 1]. -/
inductive Reg
  | status
  | key
  | iv
  | din
  | dout
  | src
  | dst
  | len
  | subkey (i : Fin 16)
  deriving DecidableEq, Repr

/-- What the host does (30_encoding.md R70; the two memory actions 20_memory.md R50). -/
inductive HostAction
  | issue (c : CommandWord)
  | regWrite (n : BitVec 5) (v : BitVec 64)
  | regRead (n : BitVec 5)
  | reset
  | memWrite (a : Nat) (b : Byte)
  | memRead (a : Nat)
  deriving DecidableEq, Repr

/-- What a read of the host returned; a register's value zero-extended to 64 bits (10_state.md R25, log 5). -/
inductive HostReply
  | reg (n : BitVec 5) (v : BitVec 64)
  | byte (a : Nat) (b : Byte)
  deriving DecidableEq, Repr

/-- The registers a WR line may name (30_encoding.md R80). -/
inductive WritableReg
  | key
  | iv
  | din
  | src
  | dst
  | len
  deriving DecidableEq, Repr

/-- One line of a host script (30_encoding.md R80) or pseudo-line (R81). -/
inductive ScriptLine
  | reset
  | wr (r : WritableReg) (v : BitVec 64)
  | rd (r : Reg)
  | memw (a : Nat) (bytes : List Byte)
  | memr (a : Nat) (count : Nat)
  | command (i : Instr)
  | issue (c : CommandWord)
  | setkey (bytes : Vector Byte 8)
  | buf (src dst len : BitVec 64)
  | enc (bytes : Vector Byte 8)
  | dec (bytes : Vector Byte 8)
  deriving DecidableEq, Repr

end Sys2Proof
end

