-- ==== Sys2Proof/WellFormed.lean ====
section
/-! DEFINITION. The checks of well-formedness: a command word's fields, a permutation table, the configuration. -/

namespace Sys2Proof

/-- The fields of a command word that is a command (30_encoding.md R71 to R74): ZERO is 0000, OP is assigned, and DIR is 0
where OP is INIT. -/
def CmdFields.wf (f : CmdFields) : Bool :=
  f.zero == 0#4 && (1 ≤ f.op.toNat && f.op.toNat ≤ 4) && (f.op != 1#3 || f.dir == 0#1)

/-- A permutation table is well-formed for input width w when every entry is a position 1 .. w (40_permutation.md R101). -/
def tableWf (w : Nat) (t : List Nat) : Bool :=
  t.all fun p => 1 ≤ p && p ≤ w

/-- The range of AW (00_scope.md R7). -/
def Config.wf (c : Config) : Bool :=
  4 ≤ c.aw && c.aw ≤ 64

end Sys2Proof
end

