-- ==== Sys2Proof/Decode.lean ====
section
/-! DEFINITION. From a command word to a command, and back; from a register number to a register, and back
(30_encoding.md R71 to R79). -/

namespace Sys2Proof

/-- Why a word is no command (30_encoding.md R71, R73, R74). All three are the one cause ILLCMD to the host. -/
inductive DecodeError
  | zeroFieldSet
  | opUnassigned
  | initWithDir
  deriving DecidableEq, Repr

/-- The fields of a word by index: ZERO [7:4], OP [3:1], DIR [0] (30_encoding.md R71). -/
def CmdFields.ofWord (c : CommandWord) : CmdFields :=
  { zero := c.extractLsb' 4 4, op := c.extractLsb' 1 3, dir := c.extractLsb' 0 1 }

/-- The word of three fields (30_encoding.md R71). -/
def CmdFields.toWord (f : CmdFields) : CommandWord :=
  f.zero ++ f.op ++ f.dir

/-- OP: 1 INIT, 2 BLK, 3 ECB, 4 CBC; 0, 5, 6, 7 are not assigned (30_encoding.md R71). -/
def OpClass.ofBits (op : BitVec 3) : Option OpClass :=
  if op = 1#3 then some .init
  else if op = 2#3 then some .blk
  else if op = 3#3 then some .ecb
  else if op = 4#3 then some .cbc
  else none

/-- The OP field of a class (30_encoding.md R71). -/
def OpClass.bits : OpClass → BitVec 3
  | .init => 1#3
  | .blk  => 2#3
  | .ecb  => 3#3
  | .cbc  => 4#3

/-- DIR: 0 ascending (encrypt), 1 descending (decrypt) (30_encoding.md R71). -/
def Dir.ofBit (b : BitVec 1) : Dir :=
  if b = 0#1 then .enc else .dec

/-- The DIR bit of a traversal order (30_encoding.md R71). -/
def Dir.bit : Dir → BitVec 1
  | .enc => 0#1
  | .dec => 1#1

/-- The command of a class and a direction (30_encoding.md R72); INIT has no direction (R73). -/
def Instr.ofClass : OpClass → Dir → Except DecodeError Instr
  | .init, .enc => .ok .init
  | .init, .dec => .error .initWithDir
  | .blk,  .enc => .ok .encb
  | .blk,  .dec => .ok .decb
  | .ecb,  .enc => .ok .ecbe
  | .ecb,  .dec => .ok .ecbd
  | .cbc,  .enc => .ok .cbce
  | .cbc,  .dec => .ok .cbcd

/-- The decoder (30_encoding.md R72, R74). -/
def decode (c : CommandWord) : Except DecodeError Instr :=
  let f := CmdFields.ofWord c
  if f.zero ≠ 0#4 then .error .zeroFieldSet
  else
    match OpClass.ofBits f.op with
    | none    => .error .opUnassigned
    | some op => Instr.ofClass op (Dir.ofBit f.dir)

/-- The class of a command (30_encoding.md R72). -/
def Instr.opClass : Instr → OpClass
  | .init => .init
  | .encb => .blk
  | .decb => .blk
  | .ecbe => .ecb
  | .ecbd => .ecb
  | .cbce => .cbc
  | .cbcd => .cbc

/-- The direction of a command (30_encoding.md R72). -/
def Instr.dir : Instr → Dir
  | .init => .enc
  | .encb => .enc
  | .decb => .dec
  | .ecbe => .enc
  | .ecbd => .dec
  | .cbce => .enc
  | .cbcd => .dec

/-- The fields of a command's word (30_encoding.md R71, R72). -/
def Instr.fields (i : Instr) : CmdFields :=
  { zero := 0#4, op := i.opClass.bits, dir := i.dir.bit }

/-- The encoder: the word of a command (30_encoding.md R72). -/
def encode (i : Instr) : CommandWord :=
  i.fields.toWord

/-- What the decoder gives for an opcode-table row whose bits are w. A command word is 8 bits and one word
(30_encoding.md R71, R79); a longer pattern with a bit set above them is no command word. -/
def decodeTableWord (nbits w : Nat) : Option Instr :=
  let bits := w % 2 ^ nbits
  if bits < 256 then (decode (BitVec.ofNat 8 bits)).toOption else none

/-- The register of a register number; 8 .. 15 are not assigned (30_encoding.md R76). -/
def Reg.ofNumber (n : BitVec 5) : Option Reg :=
  if n = 0#5 then some .status
  else if n = 1#5 then some .key
  else if n = 2#5 then some .iv
  else if n = 3#5 then some .din
  else if n = 4#5 then some .dout
  else if n = 5#5 then some .src
  else if n = 6#5 then some .dst
  else if n = 7#5 then some .len
  else if h : 16 ≤ n.toNat then some (.subkey ⟨n.toNat - 16, by omega⟩)
  else none

/-- The number of a register; K[i] has number 15 + i (30_encoding.md R76). -/
def Reg.number : Reg → BitVec 5
  | .status   => 0#5
  | .key      => 1#5
  | .iv       => 2#5
  | .din      => 3#5
  | .dout     => 4#5
  | .src      => 5#5
  | .dst      => 6#5
  | .len      => 7#5
  | .subkey i => BitVec.ofNat 5 (16 + i.val)

/-- The width of a register under the configuration's AW (30_encoding.md R76). -/
def Reg.width (c : Config) : Reg → Nat
  | .status   => 8
  | .key      => 64
  | .iv       => 64
  | .din      => 64
  | .dout     => 64
  | .src      => c.aw
  | .dst      => c.aw
  | .len      => c.aw
  | .subkey _ => 48

/-- Whether RegWrite changes the register (30_encoding.md R76, R78). -/
def Reg.writable : Reg → Bool
  | .status   => false
  | .key      => true
  | .iv       => true
  | .din      => true
  | .dout     => false
  | .src      => true
  | .dst      => true
  | .len      => true
  | .subkey _ => false

end Sys2Proof
end

