-- ==== Sys2Proof/Machine/State.lean ====
section
/-! DEFINITION. The machine's state as plain data, its reset, and the reasons a step can stop. -/

namespace Sys2Proof.Machine

/-- The operand and result registers and the cipher context: what the host writes or a command computes, and what Reset
leaves unspecified (10_state.md R21 to R25, R27, R38). -/
structure Regs where
  /-- KEY, the key operand of INIT (R21). -/
  key  : Block
  /-- IV, the initialization vector of CBCE and CBCD (R22). -/
  iv   : Block
  /-- DIN, the input block of ENCB and DECB (R23). -/
  din  : Block
  /-- DOUT, the output block of ENCB and DECB (R24). -/
  dout : Block
  /-- K[1] .. K[16], the context (R25). -/
  k    : Subkeys
  /-- SRC, the byte address of the input buffer (R27); AW bits (log 7). -/
  src  : AddrReg
  /-- DST, the byte address of the output buffer (R27); AW bits (log 7). -/
  dst  : AddrReg
  /-- LEN, the length of both buffers in bytes (R27); AW bits (log 7). -/
  len  : AddrReg
  deriving DecidableEq, Repr

/-- The buffer memory (20_memory.md R50): the bytes that differ from what an unlisted address reads as, by address. -/
abbrev Memory := List Host.Cell

/-- The canonical form of the memory: addresses strictly rising, and no entry equal to what an unlisted address reads as. -/
abbrev Memory.wf (m : Memory) : Prop :=
  m.Pairwise (fun x y => x.1 < y.1) ∧ ∀ x ∈ m, x.2 ≠ Config.unlistedByte

/-- The state: the core's registers and STATUS (10_state.md R20), the platform's buffer memory (20_memory.md R50), the
configuration (00_scope.md R7, log 6), and the host's side (logs 2, 4, 5). -/
structure State where
  /-- AW, MEM_ADMIT and LEN_POLICY; no step changes it (log 6). -/
  config  : Config
  /-- The operand and result registers and the context. -/
  regs    : Regs
  /-- STATUS (R28). -/
  status  : Status
  /-- The buffer memory. -/
  mem     : Memory
  /-- What the host will do, first action first (log 4). -/
  script  : List HostAction
  /-- What the host's reads returned, newest first (log 5). -/
  replies : List HostReply
  /-- How many Reset actions have drawn free values (log 2). -/
  draws   : Nat
  deriving DecidableEq, Repr

/-- The transient state of the chain inside one buffer command: CHAIN and the memory as the blocks so far have left it; the
block counter j is the index of runAfter (10_state.md R29, R30; log 10). -/
structure BufferRun where
  chain : Block
  mem   : Memory
  deriving DecidableEq, Repr

/-- The transient half-blocks inside one CRYPT; the round counter n is the index of halvesAfter (10_state.md R31; log 10). -/
structure Halves where
  l : Half
  r : Half
  deriving DecidableEq, Repr

/-- The transient halves of the permuted key inside one KS (10_state.md R31; log 10). -/
structure KeyHalves where
  c : KeyHalf
  d : KeyHalf
  deriving DecidableEq, Repr

/-- The causes of rejection (60_exceptions.md R221). -/
inductive Cause
  | illcmd
  | nokey
  | len
  | addr
  deriving DecidableEq, Repr

/-- The reasons a step stops with a fault. No command faults (00_scope.md R12). -/
inductive Fault
  /-- Raised by HostMemRead and HostMemWrite at an address a that the platform does not have (20_memory.md R50, R58;
  log 8). Safe: the machine stops where the spec gives the action no meaning. -/
  | noSuchAddress (a : Nat)
  deriving DecidableEq, Repr

/-- The reasons the model refuses. -/
inductive Refusal
  /-- Raised by no arm of exec: every command has its meaning. It would be raised for an instruction not modelled. Safe. -/
  | notModelled (mnemonic : String)
  /-- Raised by RegWrite to register n with a value wider than the register, which is no host action (30_encoding.md R70,
  log 9). Safe. -/
  | valueWiderThanRegister (n : BitVec 5)
  deriving DecidableEq, Repr

/-- The outcome of a step, a command or a host action. -/
abbrev Result := Host.Outcome State Fault Refusal

/-- The registers that reset leaves unspecified, each at zero. DESIGN CHOICE (unsafe, log 1): 10_state.md R38 gives no
value, and no statement rests on these. -/
def Regs.zero : Regs :=
  { key := 0#64, iv := 0#64, din := 0#64, dout := 0#64, k := Vector.replicate 16 0#48, src := 0#64, dst := 0#64, len := 0#64 }

/-- The machine right after reset: STATUS 0x00 (10_state.md R38); the other registers as log 1 says; the default
configuration; nothing in memory; no host action to come. -/
def State.reset : State :=
  { config := Config.default, regs := Regs.zero, status := 0x00#8, mem := [], script := [], replies := [], draws := 0 }

end Sys2Proof.Machine
end

