-- ==== Sys2Proof/Machine/Flags.lean ====
section
/-! DEFINITION. The fields of STATUS and every change of them (10_state.md R28, R36; 60_exceptions.md R221, R224, R225). -/

namespace Sys2Proof

/-- The code of a cause: 1 ILLCMD, 2 NOKEY, 3 LEN, 4 ADDR (60_exceptions.md R221). -/
def Machine.Cause.code : Machine.Cause → Nat
  | .illcmd => 1
  | .nokey  => 2
  | .len    => 3
  | .addr   => 4

/-- KVALID, STATUS[0] (10_state.md R26). -/
def Status.kvalid (st : Status) : Bool :=
  st.getLsbD 0

/-- LASTERR, STATUS[3:1] (10_state.md R28). -/
def Status.lasterr (st : Status) : BitVec 3 :=
  st.extractLsb' 1 3

/-- The sticky flag of a cause, STATUS[3 + c] (10_state.md R28, 60_exceptions.md R224). -/
def Status.sticky (st : Status) (c : Machine.Cause) : Bool :=
  st.getLsbD (3 + c.code)

/-- STATUS with LASTERR replaced. -/
def Status.withLasterr (st : Status) (e : BitVec 3) : Status :=
  (st &&& 0xF1#8) ||| (e.setWidth 8 <<< 1)

/-- A completion: LASTERR <- 0; the sticky flags stay (60_exceptions.md R225). -/
def Status.completed (st : Status) : Status :=
  st.withLasterr 0#3

/-- The completion of INIT: KVALID <- 1 as well (41_key_schedule.md R126). -/
def Status.completedInit (st : Status) : Status :=
  st.completed ||| 1#8

/-- A rejection with cause c: LASTERR <- c and STATUS[3 + c] <- 1 (60_exceptions.md R224). -/
def Status.rejected (st : Status) (c : Machine.Cause) : Status :=
  st.withLasterr (BitVec.ofNat 3 c.code) ||| (1#8 <<< (3 + c.code))

end Sys2Proof
end

