-- ==== Sys2Proof/Machine/Ops.lean ====
section
/-! DEFINITION. The operations over memory and STATUS that the meanings share: byte order, MemRead, MemWrite, and the two
ends of a command, complete and reject. Rejection stands in the place of an exception (60_exceptions.md R220); there is no
return from one (R226). -/

namespace Sys2Proof.Machine

/-- One byte: what is listed, else what an unlisted address reads as. -/
def Memory.read : Memory → Nat → Byte
  | [],          _ => Config.unlistedByte
  | (a', b) :: m, a => if a' = a then b else Memory.read m a

/-- Entry (a, b) put before the first entry of a higher address. -/
def Memory.insert : Memory → Nat → Byte → Memory
  | [],     a, b => [(a, b)]
  | c :: m, a, b => if a < c.1 then (a, b) :: c :: m else c :: Memory.insert m a b

/-- Write of one byte, in canonical form: an entry equal to what an unlisted address reads as is not kept. -/
def Memory.write (m : Memory) (a : Nat) (b : Byte) : Memory :=
  if b = Config.unlistedByte then m.filter fun c => c.1 ≠ a
  else Memory.insert (m.filter fun c => c.1 ≠ a) a b

/-- Be64: eight bytes, first byte most significant (20_memory.md R52). -/
def be64 (b0 b1 b2 b3 b4 b5 b6 b7 : Byte) : Block :=
  b0 ++ b1 ++ b2 ++ b3 ++ b4 ++ b5 ++ b6 ++ b7

/-- Byte t of Bytes8 v: v[63 - 8t : 56 - 8t], for t = 0 .. 7 (20_memory.md R52). -/
def byteOf (v : Block) (t : Nat) : Byte :=
  v.extractLsb' (56 - 8 * t) 8

/-- MemRead(a, 8): eight byte reads in ascending order (20_memory.md R53). -/
def Memory.readBlock (m : Memory) (a : Nat) : Block :=
  be64 (m.read a) (m.read (a + 1)) (m.read (a + 2)) (m.read (a + 3))
    (m.read (a + 4)) (m.read (a + 5)) (m.read (a + 6)) (m.read (a + 7))

/-- The first n byte writes of MemWrite(a, 8, v): byte t of v to address a + t, for t = 0, 1, … (20_memory.md R54). -/
def Memory.writeBytes (m : Memory) (a : Nat) (v : Block) : Nat → Memory
  | 0     => m
  | t + 1 => (m.writeBytes a v t).write (a + t) (byteOf v t)

/-- MemWrite(a, 8, v): eight byte writes in ascending order (20_memory.md R54). -/
def Memory.writeBlock (m : Memory) (a : Nat) (v : Block) : Memory :=
  m.writeBytes a v 8

/-- complete: LASTERR <- 0 and nothing else (00_scope.md R11, 60_exceptions.md R225). -/
def State.complete (s : State) : State :=
  { s with status := s.status.completed }

/-- reject c: STATUS as 60_exceptions.md R224 says and nothing else. The one place where a command that cannot be done
ends; control returns to the host as after a completion. -/
def State.reject (s : State) (c : Cause) : State :=
  { s with status := s.status.rejected c }

end Sys2Proof.Machine
end

