-- ==== Sys2Proof/Machine/Operands.lean ====
section
/-! DEFINITION. The operands of the commands, all implicit (30_encoding.md R77): the block's subkey, the buffers' addresses
and length with the checks on them, and the register file the host reaches by number. -/

namespace Sys2Proof.Machine

/-- MEM_ADMIT: whether the platform has address a; only addresses below 2^AW exist (00_scope.md R7, 20_memory.md R50). -/
def admits (c : Config) (a : Nat) : Bool :=
  a < 2 ^ c.aw &&
    match c.memAdmit with
    | .all       => true
    | .ranges rs => rs.any fun r => r.1 ≤ a && a < r.1 + r.2

/-- Every address of [a, a + n) is admitted. -/
def admitsAll (c : Config) (a : Nat) : Nat → Bool
  | 0     => true
  | n + 1 => admitsAll c a n && admits c (a + n)

/-- One buffer of the range check, on unbounded naturals: it ends at or below 2^AW and all of it is admitted
(20_memory.md R56). A buffer of no bytes passes wherever it is said to start. -/
def bufferInRange (c : Config) (a n : Nat) : Bool :=
  n == 0 || (a + n ≤ 2 ^ c.aw && admitsAll c a n)

/-- NB, the number of whole blocks in LEN bytes (44_chaining_modes.md R183). -/
def State.numBlocks (s : State) : Nat :=
  s.regs.len.toNat / 8

/-- The address of block j of the input buffer (44_chaining_modes.md R182). -/
def State.srcBlock (s : State) (j : Nat) : Nat :=
  s.regs.src.toNat + 8 * j

/-- The address of block j of the output buffer (44_chaining_modes.md R182). -/
def State.dstBlock (s : State) (j : Nat) : Nat :=
  s.regs.dst.toNat + 8 * j

/-- The checks of a buffer command in their order: the cause of the first that fails (44_chaining_modes.md R181). -/
def State.bufferCheck (s : State) : Option Cause :=
  if !s.status.kvalid then some .nokey
  else if s.regs.len.toNat % 8 ≠ 0 ∧ s.config.lenPolicy = .reject then some .len
  else if !(bufferInRange s.config s.regs.src.toNat (8 * s.numBlocks)
      && bufferInRange s.config s.regs.dst.toNat (8 * s.numBlocks)) then some .addr
  else none

/-- K[i] for i = 1 .. 16 (10_state.md R25); any other i names no subkey and is never used. -/
def subkeyAt (k : Subkeys) (i : Nat) : Subkey :=
  k.toList.getD (i - 1) 0#48

/-- The value of a register, zero-extended to 64 bits (30_encoding.md R75, R77). -/
def State.readReg (s : State) : Reg → BitVec 64
  | .status   => s.status.setWidth 64
  | .key      => s.regs.key
  | .iv       => s.regs.iv
  | .din      => s.regs.din
  | .dout     => s.regs.dout
  | .src      => s.regs.src
  | .dst      => s.regs.dst
  | .len      => s.regs.len
  | .subkey i => (s.regs.k.get i).setWidth 64

/-- The write of a register by the host; a read-only register keeps its value (30_encoding.md R75, R78). -/
def State.writeReg (s : State) (r : Reg) (v : BitVec 64) : State :=
  match r with
  | .key      => { s with regs := { s.regs with key := v } }
  | .iv       => { s with regs := { s.regs with iv := v } }
  | .din      => { s with regs := { s.regs with din := v } }
  | .src      => { s with regs := { s.regs with src := v } }
  | .dst      => { s with regs := { s.regs with dst := v } }
  | .len      => { s with regs := { s.regs with len := v } }
  | .status   => s
  | .dout     => s
  | .subkey _ => s

end Sys2Proof.Machine
end

