-- ==== Sys2Proof/Machine/Permute.lean ====
section
/-! DEFINITION. The bit-permutation engine: positions, PERMUTE and ROTL (40_permutation.md R100, R103). -/

namespace Sys2Proof.Machine

/-- The bit at position p = 1 .. w, counted from the most significant bit: v[w - p] (00_scope.md R8). -/
def bitAt {w : Nat} (v : BitVec w) (p : Nat) : Bool :=
  v.getLsbD (w - p)

/-- PERMUTE(T, w, v), written as the loop of 40_permutation.md R100; n is the length of the table. -/
def permute (n : Nat) (t : List Nat) {w : Nat} (v : BitVec w) : BitVec n :=
  t.foldl (fun result p => result.shiftConcat (bitAt v p)) 0#n

/-- ROTL(w, s, v) for 1 ≤ s ≤ w; a left shift of a w-bit vector masks to w bits (40_permutation.md R103). -/
def rotl {w : Nat} (s : Nat) (v : BitVec w) : BitVec w :=
  (v <<< s) ||| (v >>> (w - s))

end Sys2Proof.Machine
end

