-- ==== Sys2Proof/Machine/RoundFunction.lean ====
section
/-! DEFINITION. The Feistel round function F (42_round_function.md). -/

namespace Sys2Proof.Machine

/-- Steps 1 and 2: the expanded half exclusive or the subkey (42_round_function.md R140, R141). -/
def expandMix (r : Half) (k : Subkey) : BitVec 48 :=
  permute 48 tableE r ^^^ k

/-- Step 3: group g = 1 .. 8 is y[53 - 6g : 48 - 6g] (42_round_function.md R141). -/
def group (y : BitVec 48) (g : Nat) : BitVec 6 :=
  y.extractLsb' (48 - 6 * g) 6

/-- The row: the outer two bits, the first the more significant (42_round_function.md R142). -/
def sboxRow (b : BitVec 6) : Nat :=
  2 * (b.getLsbD 5).toNat + (b.getLsbD 0).toNat

/-- The column: the inner four bits in order (42_round_function.md R142). -/
def sboxCol (b : BitVec 6) : Nat :=
  (b.extractLsb' 1 4).toNat

/-- SBOX(g, G) for g = 1 .. 8 (42_round_function.md R143). -/
def sbox (g : Nat) (b : BitVec 6) : BitVec 4 :=
  BitVec.ofNat 4 (((sboxTable g).getD (sboxRow b) []).getD (sboxCol b) 0)

/-- Steps 4 and 5: the eight nibbles, N_1 most significant (42_round_function.md R140, R152). -/
def substitute (y : BitVec 48) : Half :=
  sbox 1 (group y 1) ++ sbox 2 (group y 2) ++ sbox 3 (group y 3) ++ sbox 4 (group y 4) ++
    sbox 5 (group y 5) ++ sbox 6 (group y 6) ++ sbox 7 (group y 7) ++ sbox 8 (group y 8)

/-- F(r, k) (42_round_function.md R140). -/
def roundF (r : Half) (k : Subkey) : Half :=
  permute 32 tableP (substitute (expandMix r k))

end Sys2Proof.Machine
end

