-- ==== Sys2Proof/Machine/BlockCore.lean ====
section
/-! DEFINITION. CRYPT and the meanings of ENCB and DECB (43_block_core.md). -/

namespace Sys2Proof.Machine

/-- Step 1: L_0 and R_0, positions 1 .. 32 and 33 .. 64 of IP's result (43_block_core.md R161). -/
def halvesInit (b : Block) : Halves :=
  let t := permute 64 tableIP b
  { l := t.extractLsb' 32 32, r := t.extractLsb' 0 32 }

/-- Step 2, one round: both assignments use the halves of before the round (43_block_core.md R162). -/
def Halves.round (h : Halves) (k : Subkey) : Halves :=
  { l := h.r, r := h.l ^^^ roundF h.r k }

/-- The subkey of round n: K[n] when encrypting, K[17 - n] when decrypting (43_block_core.md R160, R162). -/
def roundKey (dir : Dir) (k : Subkeys) (n : Nat) : Subkey :=
  match dir with
  | .enc => subkeyAt k n
  | .dec => subkeyAt k (17 - n)

/-- L_n and R_n, the halves after round n (43_block_core.md R160). -/
def halvesAfter (dir : Dir) (k : Subkeys) (b : Block) : Nat → Halves
  | 0     => halvesInit b
  | n + 1 => (halvesAfter dir k b n).round (roundKey dir k (n + 1))

/-- Step 3, the swap R ‖ L, and step 4, FP (43_block_core.md R163, R164). -/
def Halves.output (h : Halves) : Block :=
  permute 64 tableFP (h.r ++ h.l)

/-- CRYPT_K(dir, b) (43_block_core.md R160). -/
def crypt (dir : Dir) (k : Subkeys) (b : Block) : Block :=
  (halvesAfter dir k b 16).output

/-- What ENCB and DECB share: NOKEY without a context, else DOUT <- CRYPT(dir, DIN) (43_block_core.md R165, R166). -/
def blockCommand (dir : Dir) (s : State) : Result :=
  if s.status.kvalid then
    .next { s with regs := { s.regs with dout := crypt dir s.regs.k s.regs.din } }.complete
  else .next (s.reject .nokey)

/-- ENCB (43_block_core.md R165). -/
def execEncb (s : State) : Result :=
  blockCommand .enc s

/-- DECB (43_block_core.md R166). -/
def execDecb (s : State) : Result :=
  blockCommand .dec s

end Sys2Proof.Machine
end

