-- ==== Sys2Proof/Machine/Chaining.lean ====
section
/-! DEFINITION. The functions of the chaining modes on sequences of blocks, and the meanings of ECBE, ECBD, CBCE and CBCD
(44_chaining_modes.md). -/

namespace Sys2Proof.Machine

/-- What one block does in a mode: from CHAIN and the block read, the block written and the next CHAIN. -/
abbrev BlockFn := Block → Block → Block × Block

/-- ECB: CRYPT of the block alone; CHAIN is not used (44_chaining_modes.md R186, R187). -/
def ecbBlock (dir : Dir) (k : Subkeys) : BlockFn := fun chain x =>
  (crypt dir k x, chain)

/-- CBC encryption: y = CRYPT(enc, x ^ CHAIN), CHAIN <- y (44_chaining_modes.md R190). -/
def cbcEncBlock (k : Subkeys) : BlockFn := fun chain x =>
  let y := crypt .enc k (x ^^^ chain)
  (y, y)

/-- CBC decryption: y = CRYPT(dec, x) ^ CHAIN, CHAIN <- x (44_chaining_modes.md R193). -/
def cbcDecBlock (k : Subkeys) : BlockFn := fun chain x =>
  (crypt .dec k x ^^^ chain, x)

/-- One block of a buffer command: read in full, compute, write in full (20_memory.md R59). -/
def BufferRun.step (f : BlockFn) (src dst : Nat) (r : BufferRun) : BufferRun :=
  let out := f r.chain (r.mem.readBlock src)
  { chain := out.2, mem := r.mem.writeBlock dst out.1 }

/-- CHAIN and memory after the first j blocks, blocks in ascending order, CHAIN starting at IV (10_state.md R29, R30;
20_memory.md R59; 44_chaining_modes.md R182). ECB leaves CHAIN as it is and never reads it. -/
def runAfter (f : BlockFn) (s : State) : Nat → BufferRun
  | 0     => { chain := s.regs.iv, mem := s.mem }
  | j + 1 => (runAfter f s j).step f (s.srcBlock j) (s.dstBlock j)

/-- What the four buffer commands share: the checks, then NB blocks, then complete; CHAIN is discarded
(44_chaining_modes.md R180, R181). -/
def bufferCommand (f : BlockFn) (s : State) : Result :=
  match s.bufferCheck with
  | some c => .next (s.reject c)
  | none   => .next { s with mem := (runAfter f s s.numBlocks).mem }.complete

/-- ECBE (44_chaining_modes.md R186). -/
def execEcbe (s : State) : Result :=
  bufferCommand (ecbBlock .enc s.regs.k) s

/-- ECBD (44_chaining_modes.md R187). -/
def execEcbd (s : State) : Result :=
  bufferCommand (ecbBlock .dec s.regs.k) s

/-- CBCE (44_chaining_modes.md R190). -/
def execCbce (s : State) : Result :=
  bufferCommand (cbcEncBlock s.regs.k) s

/-- CBCD (44_chaining_modes.md R193). -/
def execCbcd (s : State) : Result :=
  bufferCommand (cbcDecBlock s.regs.k) s

/-- ECB_K(dir; X_0 .. X_(m-1)) (44_chaining_modes.md R185). -/
def ecbBlocks (dir : Dir) (k : Subkeys) (xs : List Block) : List Block :=
  xs.map (crypt dir k)

/-- CBCENC_K(V; X_0 .. X_(m-1)) (44_chaining_modes.md R185). -/
def cbcEncBlocks (k : Subkeys) : Block → List Block → List Block
  | _, []      => []
  | v, x :: xs => crypt .enc k (x ^^^ v) :: cbcEncBlocks k (crypt .enc k (x ^^^ v)) xs

/-- CBCDEC_K(V; X_0 .. X_(m-1)) (44_chaining_modes.md R185). -/
def cbcDecBlocks (k : Subkeys) : Block → List Block → List Block
  | _, []      => []
  | v, x :: xs => (crypt .dec k x ^^^ v) :: cbcDecBlocks k x xs

end Sys2Proof.Machine
end

