-- ==== Sys2Proof/Machine/KeySchedule.lean ====
section
/-! DEFINITION. The key schedule KS and the meaning of INIT (41_key_schedule.md). -/

namespace Sys2Proof.Machine

/-- C0 and D0: positions 1 .. 28 and 29 .. 56 of PC1's result (41_key_schedule.md R120, R121). -/
def keyHalvesInit (key : Block) : KeyHalves :=
  let t := permute 56 tablePC1 key
  { c := t.extractLsb' 28 28, d := t.extractLsb' 0 28 }

/-- Both halves rotated left by s (41_key_schedule.md R120). -/
def KeyHalves.rotate (h : KeyHalves) (s : Nat) : KeyHalves :=
  { c := rotl s h.c, d := rotl s h.d }

/-- C_i and D_i: each round rotates what the round before left (41_key_schedule.md R120, R122). -/
def keyHalves (key : Block) : Nat → KeyHalves
  | 0     => keyHalvesInit key
  | i + 1 => (keyHalves key i).rotate (shiftCount (i + 1))

/-- KS(k)[i] for i = 1 .. 16: PC2 of C_i ‖ D_i (41_key_schedule.md R120, R123). -/
def subkeyOf (key : Block) (i : Nat) : Subkey :=
  permute 48 tablePC2 ((keyHalves key i).c ++ (keyHalves key i).d)

/-- KS(k): sixteen subkeys in round order (41_key_schedule.md R120, R124). -/
def keySchedule (key : Block) : Subkeys :=
  Vector.ofFn fun i => subkeyOf key (i.val + 1)

/-- INIT: K[1] .. K[16] <- KS(KEY), KVALID <- 1, LASTERR <- 0. It cannot be rejected (41_key_schedule.md R126). -/
def execInit (s : State) : Result :=
  .next { s with regs := { s.regs with k := keySchedule s.regs.key }, status := s.status.completedInit }

end Sys2Proof.Machine
end

