-- ==== Sys2Proof/Machine/HostActions.lean ====
section
/-! DEFINITION. The host's actions (30_encoding.md R70; 20_memory.md R50): Issue, RegWrite, RegRead, Reset, HostMemWrite,
HostMemRead. -/

namespace Sys2Proof.Machine

/-- Issue(c): the decoded command runs to its end; an illegal word is rejected ILLCMD (30_encoding.md R70, R72, R74). -/
def issueWord (c : CommandWord) (s : State) : Result :=
  match decode c with
  | .ok i    => exec i s
  | .error _ => .next (s.reject .illcmd)

/-- RegWrite(n, v): a read-write register takes v; a read-only or unassigned number has no effect (30_encoding.md R75, R78).
A v wider than the register is no host action and is refused (log 9). -/
def regWrite (n : BitVec 5) (v : BitVec 64) (s : State) : Result :=
  match Reg.ofNumber n with
  | none   => .next s
  | some r =>
    if r.writable then
      if v.toNat < 2 ^ r.width s.config then .next (s.writeReg r v)
      else .refused (.valueWiderThanRegister n)
    else .next s

/-- What RegRead(n) returns: the register's value, zero where n is not assigned (30_encoding.md R75, R78). -/
def regReadValue (n : BitVec 5) (s : State) : BitVec 64 :=
  match Reg.ofNumber n with
  | none   => 0#64
  | some r => s.readReg r

/-- A value returned to the host (log 5). -/
def State.reply (s : State) (r : HostReply) : State :=
  { s with replies := r :: s.replies }

/-- RegRead(n): returns the value and changes nothing (30_encoding.md R75). -/
def regRead (n : BitVec 5) (s : State) : Result :=
  .next (s.reply (.reg n (regReadValue n s)))

/-- A 64-bit value cut to AW bits. -/
def toAddrWidth (c : Config) (v : BitVec 64) : AddrReg :=
  BitVec.ofNat 64 (v.toNat % 2 ^ c.aw)

/-- The registers after Reset: each an unspecified value, free (10_state.md R38, 70_reset_and_hazards.md R250; log 2). -/
def Regs.unspecified (c : Config) (draw : Nat) (r : Regs) : Regs :=
  { key  := Config.unspecified draw 1 r.key
    iv   := Config.unspecified draw 2 r.iv
    din  := Config.unspecified draw 3 r.din
    dout := Config.unspecified draw 4 r.dout
    k    := Vector.ofFn fun i => (Config.unspecified draw (16 + i.val) ((r.k.get i).setWidth 64)).setWidth 48
    src  := toAddrWidth c (Config.unspecified draw 5 r.src)
    dst  := toAddrWidth c (Config.unspecified draw 6 r.dst)
    len  := toAddrWidth c (Config.unspecified draw 7 r.len) }

/-- The state a reset leaves when the unspecified registers come out as r: STATUS 0x00, the memory untouched (10_state.md
R38, 70_reset_and_hazards.md R250). -/
def State.resetWith (s : State) (r : Regs) : State :=
  { s with regs := r, status := 0x00#8 }

/-- Reset (70_reset_and_hazards.md R250). -/
def resetCore (s : State) : Result :=
  .next { s.resetWith (s.regs.unspecified s.config s.draws) with draws := s.draws + 1 }

/-- HostMemWrite(a, b) to an address that exists (20_memory.md R50; log 8). -/
def hostMemWrite (a : Nat) (b : Byte) (s : State) : Result :=
  if admits s.config a then .next { s with mem := s.mem.write a b }
  else .fault (.noSuchAddress a)

/-- HostMemRead(a) of an address that exists (20_memory.md R50; log 8). -/
def hostMemRead (a : Nat) (s : State) : Result :=
  if admits s.config a then .next (s.reply (.byte a (s.mem.read a)))
  else .fault (.noSuchAddress a)

/-- One host action. -/
def perform (act : HostAction) (s : State) : Result :=
  match act with
  | .issue c      => issueWord c s
  | .regWrite n v => regWrite n v s
  | .regRead n    => regRead n s
  | .reset        => resetCore s
  | .memWrite a b => hostMemWrite a b s
  | .memRead a    => hostMemRead a s

/-- The next step: the next action of the script is taken from it and performed. With none left the core is idle and holds
its state (60_exceptions.md R237, 70_reset_and_hazards.md R260; log 4). -/
def stepScript (s : State) : Result :=
  match s.script with
  | []          => .next s
  | act :: rest => perform act { s with script := rest }

/-- The script whose next action is Issue of the table word w, its bits above nbits zero (log 4). -/
def withIssue (script : List HostAction) (nbits w : Nat) : List HostAction :=
  .issue (BitVec.ofNat 8 (w % 2 ^ nbits)) :: script

end Sys2Proof.Machine
end

