-- ==== Sys2Proof/Machine/Step.lean ====
section
/-! DEFINITION. One step of the machine: one host action (20_memory.md R61, log 4). -/

namespace Sys2Proof.Machine

/-- One step: the next host action, in full. -/
def step (s : State) : Host.Outcome State Fault Refusal :=
  stepScript s

/-- s with Issue of the command word w put first in the host script, which is where step takes its next action (log 4). -/
def State.withFetchWord (s : State) (nbits w : Nat) : State :=
  { s with script := withIssue s.script nbits w }

end Sys2Proof.Machine
end

