-- ==== Sys2Proof/Machine/Script.lean ====
section
/-! DEFINITION. The host-script notation: the host actions of each line and pseudo-line (30_encoding.md R80, R81). It adds
nothing to the hardware. -/

namespace Sys2Proof.Machine

/-- The register that a WR line names (30_encoding.md R80). -/
def regOfWritable : WritableReg → Reg
  | .key => .key
  | .iv  => .iv
  | .din => .din
  | .src => .src
  | .dst => .dst
  | .len => .len

/-- WR: RegWrite of the register's number (30_encoding.md R80). -/
def wrAction (r : WritableReg) (v : BitVec 64) : HostAction :=
  .regWrite (regOfWritable r).number v

/-- MEMW: HostMemWrite of the listed bytes to a, a + 1, … (30_encoding.md R80). -/
def memwActions (a : Nat) : List Byte → List HostAction
  | []      => []
  | b :: bs => .memWrite a b :: memwActions (a + 1) bs

/-- MEMR: HostMemRead of count bytes from a upward (30_encoding.md R80). -/
def memrActions (a : Nat) : Nat → List HostAction
  | 0     => []
  | n + 1 => .memRead a :: memrActions (a + 1) n

/-- Be64 of the eight bytes of a pseudo-line (20_memory.md R52, 30_encoding.md R81). -/
def be64OfBytes (bs : Vector Byte 8) : Block :=
  be64 bs[0] bs[1] bs[2] bs[3] bs[4] bs[5] bs[6] bs[7]

/-- The host actions of one line (30_encoding.md R80, R81). -/
def lineActions : ScriptLine → List HostAction
  | .reset           => [.reset]
  | .wr r v          => [wrAction r v]
  | .rd r            => [.regRead r.number]
  | .memw a bytes    => memwActions a bytes
  | .memr a count    => memrActions a count
  | .command i       => [.issue (encode i)]
  | .issue c         => [.issue c]
  | .setkey bs       => [wrAction .key (be64OfBytes bs), .issue (encode .init)]
  | .buf src dst len => [wrAction .src src, wrAction .dst dst, wrAction .len len]
  | .enc bs          => [wrAction .din (be64OfBytes bs), .issue (encode .encb), .regRead Reg.dout.number]
  | .dec bs          => [wrAction .din (be64OfBytes bs), .issue (encode .decb), .regRead Reg.dout.number]

/-- The host actions of a script, executed top to bottom (30_encoding.md R80). -/
def scriptActions (lines : List ScriptLine) : List HostAction :=
  lines.flatMap lineActions

end Sys2Proof.Machine
end

