-- ==== Sys2Proof/Safety.lean ====
section
/-! DEFINITION. The terms of the claims: when a buffer command is accepted, when its output is the mode's function, what a
clean run is, and the invariants of the machine. -/

namespace Sys2Proof.Machine

/-- The command works on buffers (44_chaining_modes.md R180). -/
def bufferInstrs : List Instr := [.ecbe, .ecbd, .cbce, .cbcd]

/-- The host action a step performs next. -/
def State.nextAction (s : State) : Option HostAction :=
  s.script.head?

/-- The state a step's action runs in: the action taken from the script (log 4). -/
def State.popAction (s : State) : State :=
  { s with script := s.script.tail }

/-- A buffer of n bytes at a passes the range check of 20_memory.md R56, read as a proposition. -/
def RangeFits (c : Config) (a n : Nat) : Prop :=
  n = 0 ∨ (a + n ≤ 2 ^ c.aw ∧ ∀ x, a ≤ x → x < a + n → admits c x = true)

/-- LEN passes check 2 of 44_chaining_modes.md R181. -/
def LengthFits (s : State) : Prop :=
  s.regs.len.toNat % 8 = 0 ∨ s.config.lenPolicy = .truncate

/-- Both buffers pass check 4 of 44_chaining_modes.md R181. -/
def BuffersFit (s : State) : Prop :=
  RangeFits s.config s.regs.src.toNat (8 * s.numBlocks) ∧ RangeFits s.config s.regs.dst.toNat (8 * s.numBlocks)

/-- A buffer command passes all four checks (44_chaining_modes.md R181). -/
def BufferAccepted (s : State) : Prop :=
  s.status.kvalid = true ∧ LengthFits s ∧ BuffersFit s

/-- Address a is in the output buffer: in one of the blocks the command stores (44_chaining_modes.md R182). -/
def InOutput (s : State) (a : Nat) : Prop :=
  ∃ j, j < s.numBlocks ∧ s.dstBlock j ≤ a ∧ a < s.dstBlock j + 8

/-- Address a is in the input buffer (44_chaining_modes.md R182). -/
def InInput (s : State) (a : Nat) : Prop :=
  ∃ j, j < s.numBlocks ∧ s.srcBlock j ≤ a ∧ a < s.srcBlock j + 8

/-- Not the overlap hazard SRC < DST < SRC + 8·NB (70_reset_and_hazards.md R258, H6 of R254). -/
def HazardFree (s : State) : Prop :=
  ¬ (s.regs.src.toNat < s.regs.dst.toNat ∧ s.regs.dst.toNat < s.regs.src.toNat + 8 * s.numBlocks)

/-- X_0 .. X_(NB-1): the input buffer of s as blocks, read in the memory m (44_chaining_modes.md R182). -/
def State.inputBlocks (s : State) (m : Memory) : List Block :=
  (List.range s.numBlocks).map fun j => m.readBlock (s.srcBlock j)

/-- Y_0 .. Y_(NB-1): the output buffer of s as blocks, read in the memory m (44_chaining_modes.md R182). -/
def State.outputBlocks (s : State) (m : Memory) : List Block :=
  (List.range s.numBlocks).map fun j => m.readBlock (s.dstBlock j)

/-- The function that a buffer command computes on its blocks (44_chaining_modes.md R185). -/
def modeFunction (i : Instr) (k : Subkeys) (iv : Block) (xs : List Block) : List Block :=
  match i with
  | .ecbe => ecbBlocks .enc k xs
  | .ecbd => ecbBlocks .dec k xs
  | .cbce => cbcEncBlocks k iv xs
  | .cbcd => cbcDecBlocks k iv xs
  | .init => []
  | .encb => []
  | .decb => []

/-- A clean run so far: no sticky flag is set (60_exceptions.md R227). -/
def State.clean (s : State) : Prop :=
  ∀ c : Cause, s.status.sticky c = false

/-- SRC, DST and LEN are AW-bit values (10_state.md R27, log 7). -/
def AddrRegsFit (s : State) : Prop :=
  s.regs.src.toNat < 2 ^ s.config.aw ∧ s.regs.dst.toNat < 2 ^ s.config.aw ∧ s.regs.len.toNat < 2 ^ s.config.aw

/-- The STATUS values that a run from Reset can show (10_state.md R26, R28; 60_exceptions.md R221 to R226): LASTERR is 0 .. 4,
and names a cause whose sticky flag is set; NOKEY is the last outcome only without a context, and LEN and ADDR only with
one, so without a context neither has occurred and no command has completed. -/
structure StatusLegal (p : LenPolicy) (st : Status) : Prop where
  lasterr_le      : st.lasterr.toNat ≤ 4
  lasterr_sticky  : ∀ c : Cause, st.lasterr.toNat = c.code → st.sticky c = true
  nokey_no_key    : st.lasterr.toNat = Cause.nokey.code → st.kvalid = false
  len_has_key     : st.sticky .len = true → st.kvalid = true
  addr_has_key    : st.sticky .addr = true → st.kvalid = true
  fresh           : st.kvalid = false → st.lasterr.toNat = 0 → st = 0x00#8
  truncate_no_len : p = .truncate → st.sticky .len = false

/-- The invariant of the machine: memory in canonical form and only at addresses the platform has (20_memory.md R50),
AW-bit registers within AW bits (10_state.md R27), STATUS one of the values a run can show. -/
structure State.Inv (s : State) : Prop where
  mem_wf       : s.mem.wf
  mem_admitted : ∀ x ∈ s.mem, admits s.config x.1 = true
  addr_fit     : AddrRegsFit s
  status_legal : StatusLegal s.config.lenPolicy s.status

/-- KVALID = 1 only while K[1] .. K[16] hold a context derived from a key (10_state.md R26). -/
def State.ContextDerived (s : State) : Prop :=
  s.status.kvalid = true → ∃ key : Block, s.regs.k = keySchedule key

end Sys2Proof.Machine
end

