-- ==== Sys2Proof/Certificates/Slice0/Obligations.lean ====
section
/-! DEFINITION. The statements for the provers, family by family: encoding, steps and host actions, STATUS and rejection,
the pure functions, the register commands, memory, the buffer commands, the invariants. -/

open Sys2Proof Sys2Proof.Machine

/-! ### Encoding (30_encoding.md) -/

/-- R72: exactly these seven words are commands, with these OP and DIR fields. -/
def Obligations.OpcodeMapIsSevenWords : Prop :=
  (∀ c i, decode c = .ok i ↔ (c, i) ∈ [(0x02#8, Instr.init), (0x04#8, .encb), (0x05#8, .decb), (0x06#8, .ecbe),
    (0x07#8, .ecbd), (0x08#8, .cbce), (0x09#8, .cbcd)]) ∧
  CmdFields.ofWord 0x02#8 = { zero := 0#4, op := 1#3, dir := 0#1 } ∧
  CmdFields.ofWord 0x04#8 = { zero := 0#4, op := 2#3, dir := 0#1 } ∧
  CmdFields.ofWord 0x05#8 = { zero := 0#4, op := 2#3, dir := 1#1 } ∧
  CmdFields.ofWord 0x06#8 = { zero := 0#4, op := 3#3, dir := 0#1 } ∧
  CmdFields.ofWord 0x07#8 = { zero := 0#4, op := 3#3, dir := 1#1 } ∧
  CmdFields.ofWord 0x08#8 = { zero := 0#4, op := 4#3, dir := 0#1 } ∧
  CmdFields.ofWord 0x09#8 = { zero := 0#4, op := 4#3, dir := 1#1 }

/-- Decode and encode agree, both ways: a command's word decodes to it, and no other word does. -/
def Obligations.DecodeInvertsEncode : Prop :=
  (∀ i, decode (encode i) = .ok i) ∧ (∀ c i, decode c = .ok i → encode i = c) ∧
    (∀ c, (∃ i, decode c = .ok i) ↔ (CmdFields.ofWord c).wf = true) ∧ (∀ i, decodeTableWord 8 (encode i).toNat = some i)

/-- R76: the register numbers, widths and access rights; 8 .. 15 name no register. -/
def Obligations.RegisterNumbersNameTheRegisters : Prop :=
  (∀ n, 8 ≤ n.toNat → n.toNat ≤ 15 → Reg.ofNumber n = none) ∧
  (∀ r, Reg.ofNumber r.number = some r) ∧
  (∀ (c : Config), ∀ e ∈ [(0#5, Reg.status, 8, false), (1#5, .key, 64, true), (2#5, .iv, 64, true), (3#5, .din, 64, true),
    (4#5, .dout, 64, false), (5#5, .src, c.aw, true), (6#5, .dst, c.aw, true), (7#5, .len, c.aw, true)],
    Reg.ofNumber e.1 = some e.2.1 ∧ e.2.1.width c = e.2.2.1 ∧ e.2.1.writable = e.2.2.2) ∧
  (∀ (c : Config) (i : Fin 16), Reg.ofNumber (BitVec.ofNat 5 (15 + (i.val + 1))) = some (.subkey i) ∧
    (Reg.subkey i).width c = 48 ∧ (Reg.subkey i).writable = false)

/-- R81: the pseudo-lines are their expansions. -/
def Obligations.PseudoLinesExpand : Prop :=
  (∀ bs, lineActions (.setkey bs) = scriptActions [.wr .key (be64OfBytes bs), .command .init]) ∧
  (∀ src dst len, lineActions (.buf src dst len) = scriptActions [.wr .src src, .wr .dst dst, .wr .len len]) ∧
  (∀ bs, lineActions (.enc bs) = scriptActions [.wr .din (be64OfBytes bs), .command .encb, .rd .dout]) ∧
  (∀ bs, lineActions (.dec bs) = scriptActions [.wr .din (be64OfBytes bs), .command .decb, .rd .dout])

/-! ### Steps and host actions (30_encoding.md, 20_memory.md, 70_reset_and_hazards.md) -/

/-- A step whose next action is Issue of a command's word runs that command, the action being taken from the script; so
does one on a state given the word by withFetchWord. -/
def Obligations.StepRunsTheDecodedCommand : Prop :=
  (∀ s c i, s.nextAction = some (.issue c) → decode c = .ok i → step s = exec i s.popAction) ∧
  (∀ s i, step (s.withFetchWord 8 (encode i).toNat) = exec i s)

/-- R74: every word outside the map, 249 of them, is rejected ILLCMD, and nothing changes but STATUS. -/
def Obligations.IllegalWordsAreRejected : Prop :=
  (∀ s c, s.nextAction = some (.issue c) → (c = 0x00#8 ∨ c = 0x01#8 ∨ c = 0x03#8 ∨ 0x0A ≤ c.toNat) →
    step s = .next (s.popAction.reject .illcmd)) ∧
  ((List.range 256).filter fun n => decodeTableWord 8 n = none).length = 249

/-- From R75: RegWrite to a read-write register sets it to the value, whole, and changes nothing else; RegRead returns the value
and changes nothing of the machine. The model's own: the value goes, zero-extended, into the list of replies (log 5), and a read
of K[i] while KVALID is 0 returns what the register holds (log 14). -/
def Obligations.RegisterAccessIsWhole : Prop :=
  (∀ s n r v, Reg.ofNumber n = some r → r.writable = true → v.toNat < 2 ^ r.width s.config →
    s.nextAction = some (.regWrite n v) →
    ∃ t, step s = .next t ∧ t.readReg r = v ∧ (∀ q, q ≠ r → t.readReg q = s.readReg q) ∧
      t = { s.popAction with regs := t.regs }) ∧
  (∀ s n r, Reg.ofNumber n = some r → s.nextAction = some (.regRead n) →
    step s = .next { s.popAction with replies := .reg n (s.readReg r) :: s.replies }) ∧
  (∀ s : State, s.readReg .status = s.status.setWidth 64 ∧ s.readReg .key = s.regs.key ∧ s.readReg .iv = s.regs.iv ∧
    s.readReg .din = s.regs.din ∧ s.readReg .dout = s.regs.dout ∧ s.readReg .src = s.regs.src ∧
    s.readReg .dst = s.regs.dst ∧ s.readReg .len = s.regs.len ∧
    ∀ i : Fin 16, s.readReg (.subkey i) = (s.regs.k.get i).setWidth 64)

/-- R78: a RegWrite to a read-only or unassigned number has no effect at all; a RegRead of an unassigned number returns
zero. -/
def Obligations.ReadOnlyAndUnassignedNumbers : Prop :=
  (∀ s n v, (n = 0#5 ∨ n = 4#5 ∨ 16 ≤ n.toNat ∨ (8 ≤ n.toNat ∧ n.toNat ≤ 15)) →
    s.nextAction = some (.regWrite n v) → step s = .next s.popAction) ∧
  (∀ s n, 8 ≤ n.toNat → n.toNat ≤ 15 → s.nextAction = some (.regRead n) →
    step s = .next { s.popAction with replies := .reg n 0#64 :: s.replies })

/-- R250: Reset sets STATUS to 0x00 and leaves the memory (and the configuration) alone; of the other registers nothing is
said. No other step clears KVALID or a sticky flag. -/
def Obligations.OnlyResetClearsStatus : Prop :=
  (∀ s, s.nextAction = some .reset →
    ∃ r d, step s = .next { s.popAction with status := 0x00#8, regs := r, draws := d }) ∧
  (∀ s t, step s = .next t → s.nextAction ≠ some .reset →
    (s.status.kvalid = true → t.status.kvalid = true) ∧
    ∀ c, s.status.sticky c = true → t.status.sticky c = true)

/-- Whatever values the unspecified registers take at a reset (10_state.md R38), every command but INIT is rejected NOKEY
after it with STATUS 0x24, and INIT completes with STATUS 0x01. -/
def Obligations.AfterResetOnlyInitCompletes : Prop :=
  ∀ (s : State) (r : Regs), (∀ i, i ≠ .init → exec i (s.resetWith r) = .next { s.resetWith r with status := 0x24#8 }) ∧
    ∃ t, exec .init (s.resetWith r) = .next t ∧ t.status = 0x01#8

/-- The host's memory accesses (20_memory.md R50, R61): a write to an address that exists sets that byte and no other, a read
returns the byte; at an address the platform does not have either faults (log 8, the model's choice). -/
def Obligations.HostMemoryAccess : Prop :=
  (∀ s a b, s.nextAction = some (.memWrite a b) → admits s.config a = true →
    ∃ t, step s = .next t ∧ t = { s.popAction with mem := t.mem } ∧ t.mem.read a = b ∧
      ∀ x, x ≠ a → t.mem.read x = s.mem.read x) ∧
  (∀ s a, s.nextAction = some (.memRead a) → admits s.config a = true →
    step s = .next { s.popAction with replies := .byte a (s.mem.read a) :: s.replies }) ∧
  (∀ s a, admits s.config a = false → (s.nextAction = some (.memRead a) ∨ ∃ b, s.nextAction = some (.memWrite a b)) →
    step s = .fault (.noSuchAddress a))

/-- A step stops only where the host does what the spec gives no meaning: a memory access at an address the platform does
not have (log 8), or a RegWrite of a value wider than the register (log 9). With no host action left the core is idle and
holds its state (log 4). All three are the model's choices. -/
def Obligations.StepsStopOnlyOnHostMisuse : Prop :=
  (∀ s, s.nextAction = none → step s = .next s) ∧
  (∀ s f, step s = .fault f → ∃ a, f = .noSuchAddress a ∧ admits s.config a = false ∧
    (s.nextAction = some (.memRead a) ∨ ∃ b, s.nextAction = some (.memWrite a b))) ∧
  (∀ s q, step s = .refused q → ∃ n v r, q = .valueWiderThanRegister n ∧ s.nextAction = some (.regWrite n v) ∧
    Reg.ofNumber n = some r ∧ 2 ^ r.width s.config ≤ v.toNat)

/-! ### STATUS, completion and rejection (10_state.md, 60_exceptions.md) -/

/-- R224: a rejection sets LASTERR to the cause and the cause's sticky flag, and nothing else changes. -/
def Obligations.RejectionChangesOnlyStatus : Prop :=
  ∀ (s : State) (c : Cause), s.reject c = { s with status := (s.reject c).status } ∧
    (s.reject c).status.lasterr.toNat = c.code ∧ (s.reject c).status.getLsbD (3 + c.code) = true ∧
    (s.reject c).status.kvalid = s.status.kvalid ∧ (∀ q, q ≠ c → (s.reject c).status.sticky q = s.status.sticky q) ∧
    (Cause.illcmd.code = 1 ∧ Cause.nokey.code = 2 ∧ Cause.len.code = 3 ∧ Cause.addr.code = 4)

/-- R225: a command that is not rejected sets LASTERR to 0, and if it is INIT KVALID to 1; the sticky flags stay. -/
def Obligations.CompletionStatus : Prop :=
  ∀ (i : Instr) (s t : State), exec i s = .next t → (∀ c, t ≠ s.reject c) →
    t.status.lasterr = 0#3 ∧ (∀ c, t.status.sticky c = s.status.sticky c) ∧ t.status.kvalid = (s.status.kvalid || i == .init)

/-- Every command ends in a next state, completed or rejected, and a rejected one has changed nothing but STATUS (R12). -/
def Obligations.CommandsCompleteOrAreRejected : Prop :=
  ∀ i s, ∃ t, exec i s = .next t ∧ ((t.status.lasterr = 0#3 ∧ ∀ c, t.status.sticky c = s.status.sticky c) ∨ ∃ c, t = s.reject c)

/-- R223: the cause reported is the first that holds of ILLCMD, NOKEY, LEN, ADDR. -/
def Obligations.RejectionPriority : Prop :=
  ∀ s c, s.nextAction = some (.issue c) →
    ((¬ ∃ i, decode c = .ok i) → step s = .next (s.popAction.reject .illcmd)) ∧
    (∀ i, decode c = .ok i → i ≠ .init → s.status.kvalid = false → step s = .next (s.popAction.reject .nokey)) ∧
    (∀ i ∈ bufferInstrs, decode c = .ok i → s.status.kvalid = true → ¬ LengthFits s →
      step s = .next (s.popAction.reject .len)) ∧
    (∀ i ∈ bufferInstrs, decode c = .ok i → s.status.kvalid = true → LengthFits s → ¬ BuffersFit s →
      step s = .next (s.popAction.reject .addr)) ∧
    (∀ i, decode c = .ok i → (i = .init ∨ (i ∉ bufferInstrs ∧ s.status.kvalid = true) ∨ BufferAccepted s) →
      ∃ t, step s = .next t ∧ t.status.lasterr = 0#3)

/-- R26: Reset clears KVALID, INIT sets it, nothing else changes it, and while it is 0 every command but INIT is rejected
NOKEY. -/
def Obligations.KvalidIsSetByInitOnly : Prop :=
  (∀ s t, step s = .next t → t.status.kvalid =
    (if s.nextAction = some .reset then false else if s.nextAction = some (.issue 0x02#8) then true else s.status.kvalid)) ∧
  (∀ i s, i ≠ .init → s.status.kvalid = false → exec i s = .next (s.reject .nokey))

/-! ### The bit-permutation engine (40_permutation.md) -/

/-- R100: position i of PERMUTE's result is position T[i] of the input; zeros give zeros and ones give ones. -/
def Obligations.PermuteRoutesPositions : Prop :=
  (∀ (n w : Nat) (t : List Nat) (v : BitVec w), t.length = n → tableWf w t = true →
    (∀ i, (h : i < t.length) → bitAt (permute n t v) (i + 1) = bitAt v t[i]) ∧
    permute n t (0#w) = 0#n ∧ permute n t (BitVec.allOnes w) = BitVec.allOnes n) ∧
  permute 64 tableIP 0x0123456789ABCDEF#64 = 0xCC00CCFFF0AAF0AA#64

/-- R101 and R102: the six tables have the stated lengths and are well-formed for the stated input widths; IP, FP and P
are bijections, PC1 and PC2 repeat nothing and drop eight positions each, E covers 1 .. 32 and repeats sixteen of them. -/
def Obligations.TablesAreWellFormedOfTheirKind : Prop :=
  (∀ e ∈ [(tableIP, 64, 64), (tableFP, 64, 64), (tableE, 32, 48), (tableP, 32, 32), (tablePC1, 64, 56), (tablePC2, 56, 48)],
    tableWf e.2.1 e.1 = true ∧ e.1.length = e.2.2) ∧
  (∀ e ∈ [(tableIP, 64), (tableFP, 64), (tableP, 32)], e.1.Nodup ∧ ∀ p, p < e.2 → p + 1 ∈ e.1) ∧
  (tablePC1.Nodup ∧ ((List.range 64).map (· + 1)).filter (· ∉ tablePC1) = [8, 16, 24, 32, 40, 48, 56, 64]) ∧
  (tablePC2.Nodup ∧ ((List.range 56).map (· + 1)).filter (· ∉ tablePC2) = [9, 18, 22, 25, 35, 38, 43, 54]) ∧
  (((List.range 32).map (· + 1)).filter (fun p => tableE.count p = 1)).length = 16 ∧
  (((List.range 32).map (· + 1)).filter (fun p => tableE.count p = 2)).length = 16

/-- R103: ROTL moves position (p - 1 + s) mod w + 1 to position p, for every count 1 ≤ s ≤ w. -/
def Obligations.RotateMovesPositions : Prop :=
  (∀ (w s : Nat) (v : BitVec w), 1 ≤ s → s ≤ w →
    (∀ p, 1 ≤ p → p ≤ w → bitAt (rotl s v) p = bitAt v ((p - 1 + s) % w + 1)) ∧
    rotl w v = v ∧ rotl s (0#w) = 0#w ∧ rotl s (BitVec.allOnes w) = BitVec.allOnes w) ∧
  rotl 1 0x8000000#28 = 0x0000001#28 ∧ rotl 1 0xF0CCAAF#28 = 0xE19955F#28

/-- R112: FP is the inverse of IP, entry by entry and as functions. -/
def Obligations.FinalPermutationInvertsInitial : Prop :=
  (∀ i, i < 64 → tableFP.getD (tableIP.getD i 0 - 1) 0 = i + 1 ∧ tableIP.getD (tableFP.getD i 0 - 1) 0 = i + 1) ∧
  (∀ v : Block, permute 64 tableFP (permute 64 tableIP v) = v) ∧
  (∀ v : Block, permute 64 tableIP (permute 64 tableFP v) = v)

/-- R114: PERMUTE is linear over exclusive or, and each output bit is a copy of exactly one input bit. -/
def Obligations.PermuteIsLinear : Prop :=
  ∀ (n w : Nat) (t : List Nat), t.length = n → tableWf w t = true →
    (∀ a b : BitVec w, permute n t (a ^^^ b) = permute n t a ^^^ permute n t b) ∧
    (∀ i, i < n → ∃! p, (1 ≤ p ∧ p ≤ w) ∧ ∀ v : BitVec w, bitAt (permute n t v) (i + 1) = bitAt v p)

/-! ### The key schedule (41_key_schedule.md) -/

/-- R111, R122 and R128: the counts are 1 in rounds 1, 2, 9, 16 and else 2; after round i both halves are the initial ones
rotated left by the cumulative count; the counts sum to 28, and after round 16 the halves are back where they started. -/
def Obligations.RotationsAccumulateAndReturn : Prop :=
  (∀ i, 1 ≤ i → i ≤ 16 → shiftCount i = if i = 1 ∨ i = 2 ∨ i = 9 ∨ i = 16 then 1 else 2) ∧
  ((List.range 16).map fun i => shiftCount (i + 1)).sum = 28 ∧
  (∀ key i, i < 16 →
    (keyHalves key (i + 1)).c = rotl ([1, 2, 4, 6, 8, 10, 12, 14, 15, 17, 19, 21, 23, 25, 27, 28].getD i 0) (keyHalves key 0).c ∧
    (keyHalves key (i + 1)).d = rotl ([1, 2, 4, 6, 8, 10, 12, 14, 15, 17, 19, 21, 23, 25, 27, 28].getD i 0) (keyHalves key 0).d) ∧
  (∀ key, (keyHalves key 16).c = (keyHalves key 0).c ∧ (keyHalves key 16).d = (keyHalves key 0).d ∧
    (keySchedule key).get 15 = permute 48 tablePC2 ((keyHalves key 0).c ++ (keyHalves key 0).d))

/-- R123: positions 1 .. 24 of a subkey are bits of C_i and 25 .. 48 bits of D_i; position 1 is position 14 of C_i ‖ D_i. -/
def Obligations.SubkeyBitsComeFromTheirHalf : Prop :=
  (∀ p, 1 ≤ p → p ≤ 24 → ∃ q, (1 ≤ q ∧ q ≤ 28) ∧
    ∀ key i, bitAt (subkeyOf key i) p = bitAt (keyHalves key i).c q) ∧
  (∀ p, 25 ≤ p → p ≤ 48 → ∃ q, (1 ≤ q ∧ q ≤ 28) ∧
    ∀ key i, bitAt (subkeyOf key i) p = bitAt (keyHalves key i).d q) ∧
  (∀ key i, bitAt (subkeyOf key i) 1 = bitAt ((keyHalves key i).c ++ (keyHalves key i).d) 14)

/-- R125: the bits at positions 8, 16, …, 64 of the key affect no subkey. -/
def Obligations.ParityBitsAffectNoSubkey : Prop :=
  ∀ k m : Block, (∀ p, 1 ≤ p → p ≤ 64 → bitAt m p = true → p % 8 = 0) → keySchedule (k ^^^ m) = keySchedule k

/-- R129: a key whose C0 and D0 are each all zeros or all ones has sixteen equal subkeys, and then the two directions are one
function; the four named keys are such, with the stated subkeys. -/
def Obligations.UniformHalvesGiveEqualSubkeys : Prop :=
  (∀ key, ((keyHalves key 0).c = 0#28 ∨ (keyHalves key 0).c = BitVec.allOnes 28) →
    ((keyHalves key 0).d = 0#28 ∨ (keyHalves key 0).d = BitVec.allOnes 28) →
    (∀ i j : Fin 16, (keySchedule key).get i = (keySchedule key).get j) ∧
    (∀ b, crypt .enc (keySchedule key) b = crypt .dec (keySchedule key) b)) ∧
  keySchedule 0x0000000000000000#64 = Vector.replicate 16 0x000000000000#48 ∧
  keySchedule 0x0101010101010101#64 = Vector.replicate 16 0x000000000000#48 ∧
  keySchedule 0xFFFFFFFFFFFFFFFF#64 = Vector.replicate 16 0xFFFFFFFFFFFF#48 ∧
  keySchedule 0xFEFEFEFEFEFEFEFE#64 = Vector.replicate 16 0xFFFFFFFFFFFF#48

/-- R126: INIT always completes; it writes all sixteen subkeys, KVALID and LASTERR, and nothing else. Its word is 0x02, and
0x03 is illegal. -/
def Obligations.InitBuildsTheContext : Prop :=
  (∀ s, ∃ t, exec .init s = .next t ∧ (∀ i : Fin 16, t.regs.k.get i = subkeyOf s.regs.key (i.val + 1)) ∧
    t.status.kvalid = true ∧ t.status.lasterr = 0#3 ∧ (∀ c, t.status.sticky c = s.status.sticky c) ∧
    t = { s with regs := { s.regs with k := t.regs.k }, status := t.status }) ∧
  decode 0x02#8 = .ok .init ∧ decode 0x03#8 = .error .initWithDir ∧
  subkeyOf 0x133457799BBCDFF1#64 1 = 0x1B02EFFC7072#48 ∧ subkeyOf 0x133457799BBCDFF1#64 16 = 0xCB3D8B0E17F5#48

/-! ### The round function (42_round_function.md) -/

/-- R140: group g of E(r) ^ k goes through S_g to nibble g, and P of the nibbles is the result; F depends on r and k only
through E(r) ^ k. -/
def Obligations.RoundFunctionSteps : Prop :=
  (∀ r k, ∃ n : Half, roundF r k = permute 32 tableP n ∧ ∀ g, 1 ≤ g → g ≤ 8 →
    n.extractLsb' (32 - 4 * g) 4 = sbox g ((permute 48 tableE r ^^^ k).extractLsb' (48 - 6 * g) 6)) ∧
  (∀ r k r' k', permute 48 tableE r ^^^ k = permute 48 tableE r' ^^^ k' → roundF r k = roundF r' k') ∧
  roundF 0x00000000#32 0x000000000000#48 = 0xD8D8DBBC#32 ∧ roundF 0xF0AAF0AA#32 0x1B02EFFC7072#48 = 0x234AA9BB#32

/-- R142 and R143: the row is the outer two bits and the column the inner four, every group names an entry that exists, and
each row of each S-box is a permutation of 0 .. 15. -/
def Obligations.SboxRowsAndColumns : Prop :=
  (∀ b1 b2 b3 b4 b5 b6 : BitVec 1, sboxRow (b1 ++ b2 ++ b3 ++ b4 ++ b5 ++ b6) = 2 * b1.toNat + b6.toNat ∧
    sboxCol (b1 ++ b2 ++ b3 ++ b4 ++ b5 ++ b6) = 8 * b2.toNat + 4 * b3.toNat + 2 * b4.toNat + b5.toNat) ∧
  (∀ g, 1 ≤ g → g ≤ 8 → (sboxTable g).length = 4 ∧ ∀ row ∈ sboxTable g, row.length = 16 ∧ ∀ x, x < 16 → x ∈ row) ∧
  (∀ g, ∀ b : BitVec 6, 1 ≤ g → g ≤ 8 → ∃ row, (sboxTable g)[sboxRow b]? = some row ∧
    ∃ x, row[sboxCol b]? = some x ∧ (sbox g b).toNat = x) ∧
  sbox 1 0b011000#6 = 5#4

/-! ### The block core (43_block_core.md) -/

/-- R167 and R170: for every context the two directions are inverse to each other, hence bijections. -/
def Obligations.CryptRoundTrip : Prop :=
  ∀ (k : Subkeys) (b : Block), crypt .dec k (crypt .enc k b) = b ∧ crypt .enc k (crypt .dec k b) = b ∧
    Function.Bijective (crypt .enc k) ∧ Function.Bijective (crypt .dec k)

/-- R168: the halves of the decryption of a ciphertext are those of its encryption read backwards and crossed. -/
def Obligations.DecryptionMirrorsEncryption : Prop :=
  ∀ (k : Subkeys) (b : Block) (n : Nat), n ≤ 16 →
    (halvesAfter .dec k (crypt .enc k b) n).l = (halvesAfter .enc k b (16 - n)).r ∧
    (halvesAfter .dec k (crypt .enc k b) n).r = (halvesAfter .enc k b (16 - n)).l

/-- The known answer of 95_test_vectors.md V1: key 133457799BBCDFF1, block 0123456789ABCDEF, ciphertext 85E813540F0AB405. -/
def Obligations.KnownAnswer : Prop :=
  crypt .enc (keySchedule 0x133457799BBCDFF1#64) 0x0123456789ABCDEF#64 = 0x85E813540F0AB405#64 ∧
  crypt .dec (keySchedule 0x133457799BBCDFF1#64) 0x85E813540F0AB405#64 = 0x0123456789ABCDEF#64

/-- R165: with a context ENCB completes with DOUT the encryption of DIN and nothing else changed; without one it is rejected
NOKEY. Its word is 0x04. -/
def Obligations.EncbEncryptsDin : Prop :=
  (∀ s, s.status.kvalid = true → ∃ t, exec .encb s = .next t ∧ t.regs.dout = crypt .enc s.regs.k s.regs.din ∧
    t.status.lasterr = 0#3 ∧ t.status.kvalid = true ∧ (∀ c, t.status.sticky c = s.status.sticky c) ∧
    t = { s with regs := { s.regs with dout := t.regs.dout }, status := t.status }) ∧
  (∀ s, s.status.kvalid = false → exec .encb s = .next (s.reject .nokey)) ∧ decode 0x04#8 = .ok .encb

/-- R166: with a context DECB completes with DOUT the decryption of DIN and nothing else changed; without one it is rejected
NOKEY. Its word is 0x05. -/
def Obligations.DecbDecryptsDin : Prop :=
  (∀ s, s.status.kvalid = true → ∃ t, exec .decb s = .next t ∧ t.regs.dout = crypt .dec s.regs.k s.regs.din ∧
    t.status.lasterr = 0#3 ∧ t.status.kvalid = true ∧ (∀ c, t.status.sticky c = s.status.sticky c) ∧
    t = { s with regs := { s.regs with dout := t.regs.dout }, status := t.status }) ∧
  (∀ s, s.status.kvalid = false → exec .decb s = .next (s.reject .nokey)) ∧ decode 0x05#8 = .ok .decb

/-- R167 on the machine: ENCB, the host copying DOUT to DIN, then DECB gives back the block, and the other way round. -/
def Obligations.EncbThenDecbReturnsTheBlock : Prop :=
  ∀ s, s.status.kvalid = true →
    (∃ t u, exec .encb s = .next t ∧ exec .decb { t with regs := { t.regs with din := t.regs.dout } } = .next u ∧
      u.regs.dout = s.regs.din) ∧
    (∃ t u, exec .decb s = .next t ∧ exec .encb { t with regs := { t.regs with din := t.regs.dout } } = .next u ∧
      u.regs.dout = s.regs.din)

/-- The frame of the commands that work on registers (R35): memory, configuration, script, replies and operand registers
stay; INIT leaves DOUT, ENCB and DECB leave the context. -/
def Obligations.RegisterCommandFrame : Prop :=
  ∀ i ∈ [Instr.init, .encb, .decb], ∀ s t, exec i s = .next t →
    (∀ a, t.mem.read a = s.mem.read a) ∧ t.mem = s.mem ∧ t.config = s.config ∧ t.script = s.script ∧
    t.replies = s.replies ∧ t.draws = s.draws ∧ t.regs.key = s.regs.key ∧ t.regs.iv = s.regs.iv ∧
    t.regs.din = s.regs.din ∧ t.regs.src = s.regs.src ∧ t.regs.dst = s.regs.dst ∧ t.regs.len = s.regs.len ∧
    (i = .init → t.regs.dout = s.regs.dout) ∧ (i ≠ .init → t.regs.k = s.regs.k ∧ t.status.kvalid = s.status.kvalid) ∧
    (t.status.lasterr = 0#3 → ∀ c, t.status.sticky c = s.status.sticky c)

/-- R34: a step changes the context only when it issues INIT, which makes it the one derived from KEY, or resets. -/
def Obligations.ContextIsImmutable : Prop :=
  ∀ s t, step s = .next t →
    (s.nextAction ≠ some (.issue 0x02#8) → s.nextAction ≠ some .reset → t.regs.k = s.regs.k) ∧
    (s.nextAction = some (.issue 0x02#8) → t.regs.k = keySchedule s.regs.key)

/-! ### Memory (20_memory.md) -/

/-- R53, in the byte order of R52: MemRead's byte t is the byte at a + t, first byte most significant. -/
def Obligations.BlockReadIsBigEndian : Prop :=
  (∀ (m : Memory) (a t : Nat), t < 8 → byteOf (m.readBlock a) t = m.read (a + t)) ∧
  (∀ v : Block, be64 (byteOf v 0) (byteOf v 1) (byteOf v 2) (byteOf v 3) (byteOf v 4) (byteOf v 5) (byteOf v 6) (byteOf v 7) = v) ∧
  be64 0x13#8 0x34#8 0x57#8 0x79#8 0x9B#8 0xBC#8 0xDF#8 0xF1#8 = 0x133457799BBCDFF1#64

/-- R54: MemWrite stores byte t of the block at a + t and touches no other address; reading it back gives the block. -/
def Obligations.BlockWriteStoresEightBytes : Prop :=
  ∀ (m : Memory) (a : Nat) (v : Block),
    (∀ t, t < 8 → (m.writeBlock a v).read (a + t) = byteOf v t) ∧
    (∀ x, x < a ∨ a + 8 ≤ x → (m.writeBlock a v).read x = m.read x) ∧ (m.writeBlock a v).readBlock a = v ∧
    (m.wf → (m.writeBlock a v).wf)

/-! ### The buffer commands (44_chaining_modes.md) -/

/-- R186: an accepted ECBE completes; block j of the memory sequence is CRYPT(enc) of the block read at SRC + 8j, stored at
DST + 8j; a check that fails rejects, NOKEY before LEN before ADDR. Its word is 0x06. -/
def Obligations.EcbeEncryptsTheBuffer : Prop :=
  (∀ s, BufferAccepted s → ∃ (t : State) (m : Nat → Memory), exec .ecbe s = .next t ∧ m 0 = s.mem ∧
    (∀ j, j < s.regs.len.toNat / 8 → m (j + 1) = (m j).writeBlock (s.regs.dst.toNat + 8 * j)
      (crypt .enc s.regs.k ((m j).readBlock (s.regs.src.toNat + 8 * j)))) ∧
    t = { s with mem := m (s.regs.len.toNat / 8), status := t.status } ∧
    t.status.lasterr = 0#3 ∧ t.status.kvalid = true ∧ ∀ c, t.status.sticky c = s.status.sticky c) ∧
  (∀ s, s.status.kvalid = false → exec .ecbe s = .next (s.reject .nokey)) ∧
  (∀ s, s.status.kvalid = true → ¬ LengthFits s → exec .ecbe s = .next (s.reject .len)) ∧
  (∀ s, s.status.kvalid = true → LengthFits s → ¬ BuffersFit s → exec .ecbe s = .next (s.reject .addr)) ∧
  decode 0x06#8 = .ok .ecbe

/-- R187: ECBD is ECBE with CRYPT(dec). Its word is 0x07. -/
def Obligations.EcbdDecryptsTheBuffer : Prop :=
  (∀ s, BufferAccepted s → ∃ (t : State) (m : Nat → Memory), exec .ecbd s = .next t ∧ m 0 = s.mem ∧
    (∀ j, j < s.regs.len.toNat / 8 → m (j + 1) = (m j).writeBlock (s.regs.dst.toNat + 8 * j)
      (crypt .dec s.regs.k ((m j).readBlock (s.regs.src.toNat + 8 * j)))) ∧
    t = { s with mem := m (s.regs.len.toNat / 8), status := t.status } ∧
    t.status.lasterr = 0#3 ∧ t.status.kvalid = true ∧ ∀ c, t.status.sticky c = s.status.sticky c) ∧
  (∀ s, s.status.kvalid = false → exec .ecbd s = .next (s.reject .nokey)) ∧
  (∀ s, s.status.kvalid = true → ¬ LengthFits s → exec .ecbd s = .next (s.reject .len)) ∧
  (∀ s, s.status.kvalid = true → LengthFits s → ¬ BuffersFit s → exec .ecbd s = .next (s.reject .addr)) ∧
  decode 0x07#8 = .ok .ecbd

/-- R190: an accepted CBCE completes; with the chain c starting at IV, block j is CRYPT(enc) of the block read exclusive or
c j, it is stored, and it is c (j + 1). Its word is 0x08. -/
def Obligations.CbceChainsTheBuffer : Prop :=
  (∀ s, BufferAccepted s → ∃ (t : State) (m : Nat → Memory) (c : Nat → Block), exec .cbce s = .next t ∧ m 0 = s.mem ∧
    c 0 = s.regs.iv ∧
    (∀ j, j < s.regs.len.toNat / 8 →
      c (j + 1) = crypt .enc s.regs.k ((m j).readBlock (s.regs.src.toNat + 8 * j) ^^^ c j) ∧
      m (j + 1) = (m j).writeBlock (s.regs.dst.toNat + 8 * j) (c (j + 1))) ∧
    t = { s with mem := m (s.regs.len.toNat / 8), status := t.status } ∧
    t.status.lasterr = 0#3 ∧ t.status.kvalid = true ∧ ∀ q, t.status.sticky q = s.status.sticky q) ∧
  (∀ s, s.status.kvalid = false → exec .cbce s = .next (s.reject .nokey)) ∧
  (∀ s, s.status.kvalid = true → ¬ LengthFits s → exec .cbce s = .next (s.reject .len)) ∧
  (∀ s, s.status.kvalid = true → LengthFits s → ¬ BuffersFit s → exec .cbce s = .next (s.reject .addr)) ∧
  decode 0x08#8 = .ok .cbce

/-- R193: an accepted CBCD completes; with the chain c starting at IV, block j is CRYPT(dec) of the block read, exclusive or
c j, it is stored, and c (j + 1) is the block read. Its word is 0x09. -/
def Obligations.CbcdUnchainsTheBuffer : Prop :=
  (∀ s, BufferAccepted s → ∃ (t : State) (m : Nat → Memory) (c : Nat → Block), exec .cbcd s = .next t ∧ m 0 = s.mem ∧
    c 0 = s.regs.iv ∧
    (∀ j, j < s.regs.len.toNat / 8 →
      c (j + 1) = (m j).readBlock (s.regs.src.toNat + 8 * j) ∧
      m (j + 1) = (m j).writeBlock (s.regs.dst.toNat + 8 * j) (crypt .dec s.regs.k (c (j + 1)) ^^^ c j)) ∧
    t = { s with mem := m (s.regs.len.toNat / 8), status := t.status } ∧
    t.status.lasterr = 0#3 ∧ t.status.kvalid = true ∧ ∀ q, t.status.sticky q = s.status.sticky q) ∧
  (∀ s, s.status.kvalid = false → exec .cbcd s = .next (s.reject .nokey)) ∧
  (∀ s, s.status.kvalid = true → ¬ LengthFits s → exec .cbcd s = .next (s.reject .len)) ∧
  (∀ s, s.status.kvalid = true → LengthFits s → ¬ BuffersFit s → exec .cbcd s = .next (s.reject .addr)) ∧
  decode 0x09#8 = .ok .cbcd

/-- The frame of the buffer commands (R35, R180): no register changes, of STATUS only what a completion or one rejection
writes, and every byte outside the blocks stored at DST reads as before. -/
def Obligations.BufferCommandFrame : Prop :=
  ∀ i ∈ bufferInstrs, ∀ s t, exec i s = .next t →
    t.regs = s.regs ∧ t.config = s.config ∧ t.script = s.script ∧ t.replies = s.replies ∧ t.draws = s.draws ∧
    t.status.kvalid = s.status.kvalid ∧
    ((t.status.lasterr = 0#3 ∧ ∀ c, t.status.sticky c = s.status.sticky c) ∨ ∃ c, t = s.reject c) ∧
    (∀ a, ¬ InOutput s a → t.mem.read a = s.mem.read a)

/-- R56: a buffer command whose other checks pass is rejected ADDR, with nothing else changed, exactly when the range check
fails; with NB = 0 the check passes whatever SRC and DST are. -/
def Obligations.RangeCheckRejectsAddr : Prop :=
  ∀ i ∈ bufferInstrs, ∀ s, s.status.kvalid = true → LengthFits s →
    let n := 8 * (s.regs.len.toNat / 8)
    let src := s.regs.src.toNat
    let dst := s.regs.dst.toNat
    (n = 0 ∨ (src + n ≤ 2 ^ s.config.aw ∧ dst + n ≤ 2 ^ s.config.aw ∧
        ∀ a, (src ≤ a ∧ a < src + n) ∨ (dst ≤ a ∧ a < dst + n) → admits s.config a = true) →
      ∃ t, exec i s = .next t ∧ t.status.lasterr = 0#3) ∧
    (¬ (n = 0 ∨ (src + n ≤ 2 ^ s.config.aw ∧ dst + n ≤ 2 ^ s.config.aw ∧
        ∀ a, (src ≤ a ∧ a < src + n) ∨ (dst ≤ a ∧ a < dst + n) → admits s.config a = true)) →
      exec i s = .next (s.reject .addr))

/-- R184: with no whole block to process a buffer command completes and touches nothing but STATUS. -/
def Obligations.NoBlocksTouchNothing : Prop :=
  ∀ i ∈ bufferInstrs, ∀ s, s.status.kvalid = true →
    (s.regs.len = 0#64 ∨ (s.config.lenPolicy = .truncate ∧ s.regs.len.toNat < 8)) → exec i s = .next s.complete

/-- R183: under reject a LEN that is no multiple of 8 is rejected LEN; under truncate the whole blocks are processed, as
after LEN is rounded down, and the rest of the output buffer is not written; for a multiple of 8 the policies agree. -/
def Obligations.LengthPolicy : Prop :=
  ∀ i ∈ bufferInstrs, ∀ s, s.status.kvalid = true →
    (s.config.lenPolicy = .reject → s.regs.len.toNat % 8 ≠ 0 → exec i s = .next (s.reject .len)) ∧
    (s.config.lenPolicy = .truncate → BuffersFit s → ∃ t, exec i s = .next t ∧ t.status.lasterr = 0#3 ∧
      exec i { s with regs := { s.regs with len := BitVec.ofNat 64 (8 * (s.regs.len.toNat / 8)) } } =
        .next { t with regs := { s.regs with len := BitVec.ofNat 64 (8 * (s.regs.len.toNat / 8)) } } ∧
      ∀ a, s.regs.dst.toNat + 8 * (s.regs.len.toNat / 8) ≤ a → t.mem.read a = s.mem.read a) ∧
    (s.regs.len.toNat % 8 = 0 → ∀ p t, exec i s = .next t →
      exec i { s with config := { s.config with lenPolicy := p } } = .next { t with config := { s.config with lenPolicy := p } })

/-- From R185 and R60: outside the overlap hazard an accepted buffer command leaves in the output buffer exactly its mode's
function of what the input buffer held at Issue; and where the buffers are disjoint, the input buffer is as it was (R60). -/
def Obligations.BufferCommandsComputeTheirMode : Prop :=
  ∀ i ∈ bufferInstrs, ∀ s, BufferAccepted s → HazardFree s →
    ∃ t, exec i s = .next t ∧ t.status.lasterr = 0#3 ∧
      s.outputBlocks t.mem = modeFunction i s.regs.k s.regs.iv (s.inputBlocks s.mem) ∧
      ((∀ a, InInput s a → ¬ InOutput s a) → s.inputBlocks t.mem = s.inputBlocks s.mem)

/-- R35's read sets: two states that agree on STATUS, the context, SRC, DST, LEN, the configuration, the bytes of the input
buffer, and for CBC on IV, get the same STATUS and the same bytes in the output buffer, whatever else they hold. -/
def Obligations.BufferCommandsReadOnlyTheirOperands : Prop :=
  ∀ i ∈ bufferInstrs, ∀ s s', BufferAccepted s → s.status = s'.status → s.config = s'.config → s.regs.k = s'.regs.k →
    s.regs.src = s'.regs.src → s.regs.dst = s'.regs.dst → s.regs.len = s'.regs.len →
    (i = .cbce ∨ i = .cbcd → s.regs.iv = s'.regs.iv) → (∀ a, InInput s a → s.mem.read a = s'.mem.read a) →
    ∃ t t', exec i s = .next t ∧ exec i s' = .next t' ∧ t.status = t'.status ∧
      ∀ a, InOutput s a → t.mem.read a = t'.mem.read a

/-- R188 and R191 on the machine: ECBE in place and then ECBD in place, and CBCE then CBCD with the same IV, give back every
register and the whole memory. -/
def Obligations.InPlaceRoundTrip : Prop :=
  ∀ s, BufferAccepted s → s.mem.wf → s.regs.src = s.regs.dst →
    (∃ t, exec .ecbe s = .next t ∧ exec .ecbd t = .next s.complete) ∧
    (∃ t, exec .cbce s = .next t ∧ exec .cbcd t = .next s.complete)

/-- R188: equal blocks give equal blocks, each block depends on its own input only, and ECB decryption and encryption invert
each other on every sequence. -/
def Obligations.EcbFunctionProperties : Prop :=
  (∀ (dir : Dir) (k : Subkeys) (xs : List Block) (i j : Nat), xs[i]? = xs[j]? → (ecbBlocks dir k xs)[i]? = (ecbBlocks dir k xs)[j]?) ∧
  (∀ (dir : Dir) (k : Subkeys) (xs : List Block) (j : Nat), (ecbBlocks dir k xs)[j]? = (xs[j]?).map (crypt dir k)) ∧
  (∀ k xs, ecbBlocks .dec k (ecbBlocks .enc k xs) = xs ∧ ecbBlocks .enc k (ecbBlocks .dec k xs) = xs)

/-- R191: CBC decryption undoes CBC encryption for every context, IV and sequence of blocks, and the other way round. -/
def Obligations.CbcRoundTrip : Prop :=
  ∀ (k : Subkeys) (v : Block) (xs : List Block),
    cbcDecBlocks k v (cbcEncBlocks k v xs) = xs ∧ cbcEncBlocks k v (cbcDecBlocks k v xs) = xs

/-- R192: two plaintexts that differ in the first block only have ciphertexts that differ in every block. -/
def Obligations.CbcDiffusion : Prop :=
  ∀ (k : Subkeys) (v x x' : Block) (xs : List Block), x ≠ x' → ∀ j, j < xs.length + 1 →
    (cbcEncBlocks k v (x :: xs))[j]? ≠ (cbcEncBlocks k v (x' :: xs))[j]?

/-- R194: a message in two pieces, the second started from the last ciphertext block of the first, is the message in one;
for decryption the last ciphertext block consumed. -/
def Obligations.CbcMessagesSplit : Prop :=
  ∀ (k : Subkeys) (v : Block) (xs ys : List Block),
    cbcEncBlocks k v (xs ++ ys) = cbcEncBlocks k v xs ++ cbcEncBlocks k ((cbcEncBlocks k v xs).getLastD v) ys ∧
    cbcDecBlocks k v (xs ++ ys) = cbcDecBlocks k v xs ++ cbcDecBlocks k (xs.getLastD v) ys

/-! ### The invariants -/

/-- The invariant holds in the reset state, and in the state any Reset leaves whatever AW-bit values its registers take. -/
def Obligations.ResetMeetsTheInvariant : Prop :=
  State.reset.Inv ∧ State.reset.ContextDerived ∧
  (∀ (s : State) (r : Regs), s.Inv → AddrRegsFit (s.resetWith r) → (s.resetWith r).Inv)

/-- Every step keeps the invariant: canonical memory at addresses that exist, AW-bit registers within AW bits, and STATUS one
of the values a run can show. -/
def Obligations.StepKeepsTheInvariant : Prop :=
  ∀ s t : State, s.Inv → step s = .next t → t.Inv

/-- Every step keeps this: KVALID is 1 only while K[1] .. K[16] are the key schedule of some key (R26). -/
def Obligations.StepKeepsTheContextDerived : Prop :=
  ∀ s t : State, s.ContextDerived → step s = .next t → t.ContextDerived

/-- No step changes the configuration, and a step that issues a command takes that action and nothing else from the host's
side. -/
def Obligations.StepsKeepTheConfiguration : Prop :=
  ∀ s t, step s = .next t → t.config = s.config ∧ t.script = s.script.tail ∧
    (∀ c, s.nextAction = some (.issue c) → t.replies = s.replies ∧ t.draws = s.draws)
end

