-- ==== Sys2Proof/Laws/Memory.lean ====
section
/-! SUPPORT. The laws of the buffer memory: read after write, the canonical form is kept, equal reads make equal memories. -/

namespace Sys2Proof.Machine

theorem Memory.read_nil (a : Nat) : Memory.read [] a = Config.unlistedByte := rfl

theorem Memory.read_cons (c : Host.Cell) (m : Memory) (a : Nat) :
    Memory.read (c :: m) a = if c.1 = a then c.2 else Memory.read m a := rfl

theorem Memory.read_filter_ne (m : Memory) (a x : Nat) :
    Memory.read (m.filter fun c => c.1 ≠ a) x = if x = a then Config.unlistedByte else m.read x := by
  induction m with
  | nil => simp [Memory.read_nil]
  | cons c m ih =>
    by_cases h : c.1 = a
    · simp only [List.filter_cons, h, ne_eq, not_true_eq_false, decide_false, Bool.false_eq_true, if_false, ih,
        Memory.read_cons]
      by_cases hx : x = a
      · simp [hx]
      · simp [hx, Ne.symm hx]
    · simp only [List.filter_cons, h, ne_eq, not_false_eq_true, decide_true, if_true, Memory.read_cons, ih]
      by_cases hx : x = a
      · subst hx; simp [h]
      · simp [hx]

theorem Memory.read_insert (m : Memory) (a x : Nat) (b : Byte) (h : ∀ c ∈ m, c.1 ≠ a) :
    Memory.read (m.insert a b) x = if x = a then b else m.read x := by
  induction m with
  | nil =>
    by_cases hx : x = a
    · simp [Memory.insert, Memory.read_cons, hx]
    · simp [Memory.insert, Memory.read_cons, hx, Ne.symm hx]
  | cons c m ih =>
    have ih := ih fun d hd => h d (List.mem_cons_of_mem _ hd)
    have hc : c.1 ≠ a := h c List.mem_cons_self
    by_cases hlt : a < c.1
    · by_cases hx : x = a
      · simp [Memory.insert, hlt, Memory.read_cons, hx]
      · simp [Memory.insert, hlt, Memory.read_cons, hx, Ne.symm hx]
    · simp only [Memory.insert, hlt, if_false, Memory.read_cons, ih]
      by_cases hx : x = a
      · subst hx; simp [hc]
      · simp [hx]

/-- Reading after writing one byte: the byte at its address, the old bytes elsewhere. -/
theorem Memory.read_write (m : Memory) (a x : Nat) (b : Byte) :
    (m.write a b).read x = if x = a then b else m.read x := by
  unfold Memory.write
  split
  · next hb => rw [Memory.read_filter_ne, hb]
  · rw [Memory.read_insert]
    · rw [Memory.read_filter_ne]; split <;> rfl
    · intro c hc; simpa using (List.mem_filter.mp hc).2

theorem Memory.mem_insert {m : Memory} {a : Nat} {b : Byte} {c : Host.Cell} (h : c ∈ m.insert a b) :
    c = (a, b) ∨ c ∈ m := by
  induction m with
  | nil => simpa [Memory.insert] using h
  | cons d m ih =>
    by_cases hlt : a < d.1
    · simpa [Memory.insert, hlt] using h
    · simp only [Memory.insert, hlt, if_false, List.mem_cons] at h ⊢
      rcases h with h | h
      · exact .inr (.inl h)
      · exact (ih h).imp_right .inr

/-- A write lists no other address than its own and those listed before. -/
theorem Memory.mem_write {m : Memory} {a : Nat} {b : Byte} {c : Host.Cell} (h : c ∈ m.write a b) :
    c = (a, b) ∨ c ∈ m := by
  unfold Memory.write at h
  split at h
  · exact .inr (List.mem_filter.mp h).1
  · exact (Memory.mem_insert h).imp_right fun h => (List.mem_filter.mp h).1

theorem Memory.insert_pairwise {m : Memory} (a : Nat) (b : Byte) (hm : m.Pairwise fun x y => x.1 < y.1)
    (h : ∀ c ∈ m, c.1 ≠ a) : (m.insert a b).Pairwise fun x y => x.1 < y.1 := by
  induction m with
  | nil => simp [Memory.insert]
  | cons c m ih =>
    obtain ⟨hc, hm'⟩ := List.pairwise_cons.mp hm
    have hca : c.1 ≠ a := h c List.mem_cons_self
    by_cases hlt : a < c.1
    · simp only [Memory.insert, hlt, if_true]
      refine List.pairwise_cons.mpr ⟨fun d hd => ?_, hm⟩
      rcases List.mem_cons.mp hd with rfl | hd
      · exact hlt
      · exact hlt.trans (hc d hd)
    · simp only [Memory.insert, hlt, if_false]
      refine List.pairwise_cons.mpr ⟨fun d hd => ?_, ih hm' fun d hd => h d (List.mem_cons_of_mem _ hd)⟩
      rcases Memory.mem_insert hd with rfl | hd
      · exact lt_of_le_of_ne (not_lt.mp hlt) hca
      · exact hc d hd

/-- A write keeps the canonical form. -/
theorem Memory.write_wf {m : Memory} (hm : m.wf) (a : Nat) (b : Byte) : (m.write a b).wf := by
  have hf : (m.filter fun c => c.1 ≠ a).Pairwise fun x y => x.1 < y.1 := hm.1.filter _
  unfold Memory.write
  split
  · exact ⟨hf, fun c hc => hm.2 c (List.mem_filter.mp hc).1⟩
  · next hb =>
    refine ⟨Memory.insert_pairwise a b hf fun c hc => by simpa using (List.mem_filter.mp hc).2, fun c hc => ?_⟩
    rcases Memory.mem_insert hc with rfl | hc
    · exact hb
    · exact hm.2 c (List.mem_filter.mp hc).1

theorem Memory.read_eq_of_mem {m : Memory} (hm : m.wf) {c : Host.Cell} (h : c ∈ m) : m.read c.1 = c.2 := by
  induction m with
  | nil => simp at h
  | cons d m ih =>
    obtain ⟨hd, hm'⟩ := List.pairwise_cons.mp hm.1
    rw [Memory.read_cons]
    rcases List.mem_cons.mp h with rfl | h
    · simp
    · rw [if_neg (hd c h).ne]
      exact ih ⟨hm', fun x hx => hm.2 x (List.mem_cons_of_mem _ hx)⟩ h

theorem Memory.mem_of_read_ne {m : Memory} {a : Nat} (h : m.read a ≠ Config.unlistedByte) : (a, m.read a) ∈ m := by
  induction m with
  | nil => exact absurd rfl h
  | cons d m ih =>
    rw [Memory.read_cons] at h ⊢
    by_cases hd : d.1 = a
    · subst hd; simp
    · simp only [hd, if_false] at h ⊢
      exact List.mem_cons_of_mem _ (ih h)

/-- Two memories in canonical form that read alike everywhere are equal. -/
theorem Memory.eq_of_read_eq {m m' : Memory} (hm : m.wf) (hm' : m'.wf) (h : ∀ a, m.read a = m'.read a) : m = m' := by
  have sub : ∀ {p q : Memory}, p.wf → (∀ a, p.read a = q.read a) → ∀ c ∈ p, c ∈ q := by
    intro p q hp hpq c hc
    have hr := Memory.read_eq_of_mem hp hc
    have hne : q.read c.1 ≠ Config.unlistedByte := by rw [← hpq, hr]; exact hp.2 c hc
    have := Memory.mem_of_read_ne hne
    rwa [← hpq, hr] at this
  have nodup : ∀ {p : Memory}, p.wf → p.Nodup := fun hp => hp.1.imp fun {x y} hxy => by
    rintro rfl; exact lt_irrefl _ hxy
  have perm : m.Perm m' := (List.perm_ext_iff_of_nodup (nodup hm) (nodup hm')).mpr fun c =>
    ⟨sub hm h c, sub hm' (fun a => (h a).symm) c⟩
  exact perm.eq_of_pairwise (fun x y _ _ h1 h2 => absurd (h1.trans h2) (lt_irrefl _)) hm.1 hm'.1

theorem Memory.read_writeBytes (m : Memory) (a x n : Nat) (v : Block) :
    (m.writeBytes a v n).read x = if a ≤ x ∧ x < a + n then byteOf v (x - a) else m.read x := by
  induction n with
  | zero =>
    have : ¬ (a ≤ x ∧ x < a + 0) := by omega
    rw [if_neg this, Memory.writeBytes]
  | succ n ih =>
    rw [Memory.writeBytes, Memory.read_write, ih]
    by_cases h : x = a + n
    · subst h; simp
    · have : (a ≤ x ∧ x < a + (n + 1)) ↔ (a ≤ x ∧ x < a + n) := by omega
      simp [h, this]

/-- Reading one byte after a block is stored at a. -/
theorem Memory.read_writeBlock (m : Memory) (a x : Nat) (v : Block) :
    (m.writeBlock a v).read x = if a ≤ x ∧ x < a + 8 then byteOf v (x - a) else m.read x :=
  Memory.read_writeBytes m a x 8 v

theorem Memory.writeBytes_wf {m : Memory} (hm : m.wf) (a : Nat) (v : Block) (n : Nat) : (m.writeBytes a v n).wf := by
  induction n with
  | zero => exact hm
  | succ n ih => exact Memory.write_wf ih _ _

/-- Storing a block keeps the canonical form. -/
theorem Memory.writeBlock_wf {m : Memory} (hm : m.wf) (a : Nat) (v : Block) : (m.writeBlock a v).wf :=
  Memory.writeBytes_wf hm a v 8

theorem Memory.mem_writeBytes {m : Memory} {a n : Nat} {v : Block} {c : Host.Cell} (h : c ∈ m.writeBytes a v n) :
    (a ≤ c.1 ∧ c.1 < a + n) ∨ c ∈ m := by
  induction n with
  | zero => exact .inr h
  | succ n ih =>
    rcases Memory.mem_write h with rfl | h
    · exact .inl ⟨by simp, by simp⟩
    · exact (ih h).imp_left fun h => ⟨h.1, by omega⟩

/-- Storing a block lists no address outside it that was not listed before. -/
theorem Memory.mem_writeBlock {m : Memory} {a : Nat} {v : Block} {c : Host.Cell} (h : c ∈ m.writeBlock a v) :
    (a ≤ c.1 ∧ c.1 < a + 8) ∨ c ∈ m :=
  Memory.mem_writeBytes h

/-- A block read depends on its eight bytes only. -/
theorem Memory.readBlock_congr {m m' : Memory} {a a' : Nat} (h : ∀ t, t < 8 → m.read (a + t) = m'.read (a' + t)) :
    m.readBlock a = m'.readBlock a' := by
  have h0 := h 0 (by omega)
  simp only [Nat.add_zero] at h0
  simp only [Memory.readBlock, h0, h 1 (by omega), h 2 (by omega), h 3 (by omega), h 4 (by omega), h 5 (by omega),
    h 6 (by omega), h 7 (by omega)]

/-- Bit i of Be64: bit i mod 8 of byte 7 - i / 8. -/
theorem getLsbD_be64 (b0 b1 b2 b3 b4 b5 b6 b7 : Byte) (i : Nat) (h : i < 64) :
    (be64 b0 b1 b2 b3 b4 b5 b6 b7).getLsbD i =
      ([b7, b6, b5, b4, b3, b2, b1, b0].getD (i / 8) 0).getLsbD (i % 8) := by
  unfold be64
  simp only [BitVec.getLsbD_append]
  interval_cases i <;> rfl

theorem getLsbD_byteOf (v : Block) (t i : Nat) (h : i < 8) : (byteOf v t).getLsbD i = v.getLsbD (56 - 8 * t + i) := by
  simp [byteOf, h]

/-- Bytes8 inverts Be64 (20_memory.md R52). -/
theorem be64_byteOf (v : Block) : be64 (byteOf v 0) (byteOf v 1) (byteOf v 2) (byteOf v 3) (byteOf v 4) (byteOf v 5)
    (byteOf v 6) (byteOf v 7) = v := by
  apply BitVec.eq_of_getLsbD_eq
  intro i hi
  rw [getLsbD_be64 _ _ _ _ _ _ _ _ i hi]
  have h8 : i % 8 < 8 := Nat.mod_lt _ (by omega)
  have hd : i / 8 < 8 := by omega
  have key : ∀ q, q < 8 → ([byteOf v 7, byteOf v 6, byteOf v 5, byteOf v 4, byteOf v 3, byteOf v 2, byteOf v 1,
      byteOf v 0].getD q 0) = byteOf v (7 - q) := by
    intro q hq; interval_cases q <;> rfl
  rw [key _ hd, getLsbD_byteOf _ _ _ h8]
  congr 1; omega

/-- A block stored at a reads back as it was stored. -/
theorem Memory.readBlock_writeBlock_self (m : Memory) (a : Nat) (v : Block) : (m.writeBlock a v).readBlock a = v := by
  conv_rhs => rw [← be64_byteOf v]
  simp only [Memory.readBlock, Memory.read_writeBlock]
  simp

/-- A block that does not meet the one stored reads as before. -/
theorem Memory.readBlock_writeBlock_disjoint (m : Memory) (a x : Nat) (v : Block) (h : x + 8 ≤ a ∨ a + 8 ≤ x) :
    (m.writeBlock a v).readBlock x = m.readBlock x :=
  Memory.readBlock_congr fun t ht => by
    rw [Memory.read_writeBlock, if_neg (by omega)]

end Sys2Proof.Machine
end

