-- ==== Sys2Proof/Laws/State.lean ====
section
/-! SUPPORT. What each update of the state leaves, field by field. -/

namespace Sys2Proof.Machine

@[simp] theorem State.complete_status (s : State) : s.complete.status = s.status.completed := rfl
@[simp] theorem State.complete_regs (s : State) : s.complete.regs = s.regs := rfl
@[simp] theorem State.complete_mem (s : State) : s.complete.mem = s.mem := rfl
@[simp] theorem State.complete_config (s : State) : s.complete.config = s.config := rfl
@[simp] theorem State.complete_script (s : State) : s.complete.script = s.script := rfl
@[simp] theorem State.complete_replies (s : State) : s.complete.replies = s.replies := rfl
@[simp] theorem State.complete_draws (s : State) : s.complete.draws = s.draws := rfl

@[simp] theorem State.reject_status (s : State) (c : Cause) : (s.reject c).status = s.status.rejected c := rfl
@[simp] theorem State.reject_regs (s : State) (c : Cause) : (s.reject c).regs = s.regs := rfl
@[simp] theorem State.reject_mem (s : State) (c : Cause) : (s.reject c).mem = s.mem := rfl
@[simp] theorem State.reject_config (s : State) (c : Cause) : (s.reject c).config = s.config := rfl
@[simp] theorem State.reject_script (s : State) (c : Cause) : (s.reject c).script = s.script := rfl
@[simp] theorem State.reject_replies (s : State) (c : Cause) : (s.reject c).replies = s.replies := rfl
@[simp] theorem State.reject_draws (s : State) (c : Cause) : (s.reject c).draws = s.draws := rfl

@[simp] theorem State.reply_status (s : State) (r : HostReply) : (s.reply r).status = s.status := rfl
@[simp] theorem State.reply_regs (s : State) (r : HostReply) : (s.reply r).regs = s.regs := rfl
@[simp] theorem State.reply_mem (s : State) (r : HostReply) : (s.reply r).mem = s.mem := rfl
@[simp] theorem State.reply_config (s : State) (r : HostReply) : (s.reply r).config = s.config := rfl
@[simp] theorem State.reply_script (s : State) (r : HostReply) : (s.reply r).script = s.script := rfl
@[simp] theorem State.reply_replies (s : State) (r : HostReply) : (s.reply r).replies = r :: s.replies := rfl
@[simp] theorem State.reply_draws (s : State) (r : HostReply) : (s.reply r).draws = s.draws := rfl

@[simp] theorem State.resetWith_status (s : State) (r : Regs) : (s.resetWith r).status = 0x00#8 := rfl
@[simp] theorem State.resetWith_regs (s : State) (r : Regs) : (s.resetWith r).regs = r := rfl
@[simp] theorem State.resetWith_mem (s : State) (r : Regs) : (s.resetWith r).mem = s.mem := rfl
@[simp] theorem State.resetWith_config (s : State) (r : Regs) : (s.resetWith r).config = s.config := rfl
@[simp] theorem State.resetWith_script (s : State) (r : Regs) : (s.resetWith r).script = s.script := rfl
@[simp] theorem State.resetWith_replies (s : State) (r : Regs) : (s.resetWith r).replies = s.replies := rfl
@[simp] theorem State.resetWith_draws (s : State) (r : Regs) : (s.resetWith r).draws = s.draws := rfl

@[simp] theorem State.writeReg_status (s : State) (r : Reg) (v : BitVec 64) : (s.writeReg r v).status = s.status := by
  cases r <;> rfl
@[simp] theorem State.writeReg_mem (s : State) (r : Reg) (v : BitVec 64) : (s.writeReg r v).mem = s.mem := by
  cases r <;> rfl
@[simp] theorem State.writeReg_config (s : State) (r : Reg) (v : BitVec 64) : (s.writeReg r v).config = s.config := by
  cases r <;> rfl
@[simp] theorem State.writeReg_script (s : State) (r : Reg) (v : BitVec 64) : (s.writeReg r v).script = s.script := by
  cases r <;> rfl
@[simp] theorem State.writeReg_replies (s : State) (r : Reg) (v : BitVec 64) : (s.writeReg r v).replies = s.replies := by
  cases r <;> rfl
@[simp] theorem State.writeReg_draws (s : State) (r : Reg) (v : BitVec 64) : (s.writeReg r v).draws = s.draws := by
  cases r <;> rfl
@[simp] theorem State.writeReg_k (s : State) (r : Reg) (v : BitVec 64) : (s.writeReg r v).regs.k = s.regs.k := by
  cases r <;> rfl
@[simp] theorem State.writeReg_dout (s : State) (r : Reg) (v : BitVec 64) : (s.writeReg r v).regs.dout = s.regs.dout := by
  cases r <;> rfl

end Sys2Proof.Machine
end

