-- ==== Sys2Proof/Laws/Status.lean ====
section
/-! SUPPORT. What a completion and a rejection do to each field of STATUS. -/

namespace Sys2Proof

open Machine

@[simp] theorem Status.lasterr_completed (st : Status) : st.completed.lasterr = 0#3 := by
  revert st; decide +kernel
@[simp] theorem Status.kvalid_completed (st : Status) : st.completed.kvalid = st.kvalid := by
  revert st; decide +kernel
@[simp] theorem Status.sticky_completed (st : Status) (c : Cause) : st.completed.sticky c = st.sticky c := by
  revert st; cases c <;> decide +kernel
@[simp] theorem Status.completed_completed (st : Status) : st.completed.completed = st.completed := by
  revert st; decide +kernel

@[simp] theorem Status.lasterr_completedInit (st : Status) : st.completedInit.lasterr = 0#3 := by
  revert st; decide +kernel
@[simp] theorem Status.kvalid_completedInit (st : Status) : st.completedInit.kvalid = true := by
  revert st; decide +kernel
@[simp] theorem Status.sticky_completedInit (st : Status) (c : Cause) : st.completedInit.sticky c = st.sticky c := by
  revert st; cases c <;> decide +kernel

@[simp] theorem Status.lasterr_rejected (st : Status) (c : Cause) : (st.rejected c).lasterr = BitVec.ofNat 3 c.code := by
  revert st; cases c <;> decide +kernel
@[simp] theorem Status.kvalid_rejected (st : Status) (c : Cause) : (st.rejected c).kvalid = st.kvalid := by
  revert st; cases c <;> decide +kernel
@[simp] theorem Status.sticky_rejected_self (st : Status) (c : Cause) : (st.rejected c).sticky c = true := by
  revert st; cases c <;> decide +kernel

/-- A rejection sets its own cause's sticky flag and keeps the others. -/
theorem Status.sticky_rejected (st : Status) (c q : Cause) : (st.rejected c).sticky q = (st.sticky q || q == c) := by
  revert st; cases c <;> cases q <;> decide +kernel

/-- A rejection is told from a completion by LASTERR. -/
theorem Status.lasterr_rejected_ne_zero (st : Status) (c : Cause) : (st.rejected c).lasterr ≠ 0#3 := by
  rw [Status.lasterr_rejected]; cases c <;> decide

@[simp] theorem Status.sticky_zero (c : Cause) : Status.sticky 0x00#8 c = false := by
  cases c <;> rfl
@[simp] theorem Status.kvalid_zero : Status.kvalid 0x00#8 = false := rfl
@[simp] theorem Status.lasterr_zero : Status.lasterr 0x00#8 = 0#3 := rfl

end Sys2Proof
end

