-- ==== Sys2Proof/Laws/Commands.lean ====
section
/-! SUPPORT. What each shared operation of the commands can do, said once: the checks of a buffer command, its block loop, the
block commands. -/

namespace Sys2Proof.Machine

theorem admitsAll_iff (c : Config) (a n : Nat) :
    admitsAll c a n = true ↔ ∀ x, a ≤ x → x < a + n → admits c x = true := by
  induction n with
  | zero => simp only [admitsAll, true_iff]; intro x h1 h2; omega
  | succ n ih =>
    rw [admitsAll, Bool.and_eq_true, ih]
    constructor
    · rintro ⟨h, hl⟩ x h1 h2
      by_cases hx : x = a + n
      · rw [hx]; exact hl
      · exact h x h1 (by omega)
    · intro h
      exact ⟨fun x h1 h2 => h x h1 (by omega), h _ (by omega) (by omega)⟩

theorem bufferInRange_iff (c : Config) (a n : Nat) : bufferInRange c a n = true ↔ RangeFits c a n := by
  simp only [bufferInRange, RangeFits, Bool.or_eq_true, beq_iff_eq, Bool.and_eq_true, decide_eq_true_eq, admitsAll_iff]

theorem not_lengthFits (s : State) :
    (s.regs.len.toNat % 8 ≠ 0 ∧ s.config.lenPolicy = .reject) ↔ ¬ LengthFits s := by
  unfold LengthFits
  cases s.config.lenPolicy <;> simp

theorem buffersFit_iff (s : State) : BuffersFit s ↔
    (bufferInRange s.config s.regs.src.toNat (8 * s.numBlocks) &&
      bufferInRange s.config s.regs.dst.toNat (8 * s.numBlocks)) = true := by
  rw [Bool.and_eq_true, bufferInRange_iff, bufferInRange_iff]; rfl

/-- The checks of a buffer command, each outcome with the condition for it (44_chaining_modes.md R181). -/
theorem bufferCheck_spec (s : State) :
    (s.status.kvalid = false → s.bufferCheck = some .nokey) ∧
    (s.status.kvalid = true → ¬ LengthFits s → s.bufferCheck = some .len) ∧
    (s.status.kvalid = true → LengthFits s → ¬ BuffersFit s → s.bufferCheck = some .addr) ∧
    (BufferAccepted s → s.bufferCheck = none) := by
  refine ⟨fun h => ?_, fun h hl => ?_, fun h hl hb => ?_, fun ⟨h, hl, hb⟩ => ?_⟩
  · simp [State.bufferCheck, h]
  · simp only [State.bufferCheck, h, Bool.not_true, Bool.false_eq_true, if_false, (not_lengthFits s).mpr hl, if_true,
      ne_eq, not_false_eq_true, and_self]
  · have hl' := mt (not_lengthFits s).mp (not_not.mpr hl)
    have hb' := Bool.eq_false_iff.mpr (mt (buffersFit_iff s).mpr hb)
    simp only [State.bufferCheck, h, Bool.not_true, Bool.false_eq_true, if_false, hl', hb', Bool.not_false, if_true]
  · have hl' := mt (not_lengthFits s).mp (not_not.mpr hl)
    have hb' := (buffersFit_iff s).mp hb
    simp only [State.bufferCheck, h, Bool.not_true, Bool.false_eq_true, if_false, hl', hb']

/-- Everything a buffer command can do (44_chaining_modes.md R181). -/
theorem bufferCommand_cases (f : BlockFn) (s : State) :
    (s.status.kvalid = false ∧ bufferCommand f s = .next (s.reject .nokey)) ∨
    (s.status.kvalid = true ∧ ¬ LengthFits s ∧ bufferCommand f s = .next (s.reject .len)) ∨
    (s.status.kvalid = true ∧ LengthFits s ∧ ¬ BuffersFit s ∧ bufferCommand f s = .next (s.reject .addr)) ∨
    (BufferAccepted s ∧
      bufferCommand f s = .next { s with mem := (runAfter f s s.numBlocks).mem, status := s.status.completed }) := by
  obtain ⟨h1, h2, h3, h4⟩ := bufferCheck_spec s
  by_cases hk : s.status.kvalid = true
  · by_cases hl : LengthFits s
    · by_cases hb : BuffersFit s
      · exact .inr (.inr (.inr ⟨⟨hk, hl, hb⟩, by rw [bufferCommand, h4 ⟨hk, hl, hb⟩]; rfl⟩))
      · exact .inr (.inr (.inl ⟨hk, hl, hb, by rw [bufferCommand, h3 hk hl hb]⟩))
    · exact .inr (.inl ⟨hk, hl, by rw [bufferCommand, h2 hk hl]⟩)
  · have hk := Bool.eq_false_iff.mpr hk
    exact .inl ⟨hk, by rw [bufferCommand, h1 hk]⟩

/-- The block function that a buffer command runs; the other commands run none. -/
theorem exec_buffer {i : Instr} (h : i ∈ bufferInstrs) (s : State) : ∃ f : BlockFn, exec i s = bufferCommand f s ∧
    ((i = .ecbe ∧ f = ecbBlock .enc s.regs.k) ∨ (i = .ecbd ∧ f = ecbBlock .dec s.regs.k) ∨
      (i = .cbce ∧ f = cbcEncBlock s.regs.k) ∨ (i = .cbcd ∧ f = cbcDecBlock s.regs.k)) := by
  cases i <;> first | (simp [bufferInstrs] at h; done) | exact ⟨_, rfl, by simp⟩

/-- Everything a block command can do (43_block_core.md R165, R166). -/
theorem blockCommand_cases (dir : Dir) (s : State) :
    (s.status.kvalid = false ∧ blockCommand dir s = .next (s.reject .nokey)) ∨
    (s.status.kvalid = true ∧ blockCommand dir s = .next
      { s with regs := { s.regs with dout := crypt dir s.regs.k s.regs.din }, status := s.status.completed }) := by
  unfold blockCommand
  cases h : s.status.kvalid
  · exact .inl ⟨rfl, by simp⟩
  · exact .inr ⟨rfl, by simp [State.complete]⟩

/-- The block loop writes only the blocks stored so far (44_chaining_modes.md R182). -/
theorem runAfter_read_outside (f : BlockFn) (s : State) (n a : Nat)
    (h : ∀ j, j < n → ¬ (s.dstBlock j ≤ a ∧ a < s.dstBlock j + 8)) : (runAfter f s n).mem.read a = s.mem.read a := by
  induction n with
  | zero => rfl
  | succ n ih =>
    rw [runAfter, BufferRun.step, Memory.read_writeBlock, if_neg (h n (by omega))]
    exact ih fun j hj => h j (by omega)

/-- The block loop keeps the canonical form of the memory. -/
theorem runAfter_wf (f : BlockFn) (s : State) (n : Nat) (h : s.mem.wf) : (runAfter f s n).mem.wf := by
  induction n with
  | zero => exact h
  | succ n ih => exact Memory.writeBlock_wf ih _ _

/-- The block loop lists no address outside the blocks stored that was not listed before. -/
theorem runAfter_mem (f : BlockFn) (s : State) (n : Nat) {c : Host.Cell} (h : c ∈ (runAfter f s n).mem) :
    c ∈ s.mem ∨ ∃ j, j < n ∧ s.dstBlock j ≤ c.1 ∧ c.1 < s.dstBlock j + 8 := by
  induction n with
  | zero => exact .inl h
  | succ n ih =>
    rcases Memory.mem_writeBlock h with h | h
    · exact .inr ⟨n, by omega, h⟩
    · exact (ih h).imp_right fun ⟨j, hj, hr⟩ => ⟨j, by omega, hr⟩

/-- An input block not yet reached still holds what it held at Issue, outside the overlap hazard (20_memory.md R60). -/
theorem runAfter_readBlock_src (f : BlockFn) (s : State) (h : HazardFree s) {n j : Nat} (hn : n ≤ j) (hj : j < s.numBlocks) :
    (runAfter f s n).mem.readBlock (s.srcBlock j) = s.mem.readBlock (s.srcBlock j) := by
  refine Memory.readBlock_congr fun t ht => runAfter_read_outside f s n _ fun q hq hc => h ?_
  simp only [State.srcBlock, State.dstBlock] at hc
  omega

/-- An output block stays as it was stored: later blocks lie above it. -/
theorem runAfter_readBlock_dst (f : BlockFn) (s : State) {n j : Nat} (hj : j < n) :
    (runAfter f s n).mem.readBlock (s.dstBlock j) =
      (f (runAfter f s j).chain ((runAfter f s j).mem.readBlock (s.srcBlock j))).1 := by
  induction n with
  | zero => omega
  | succ n ih =>
    rw [runAfter, BufferRun.step]
    by_cases h : j = n
    · subst h; exact Memory.readBlock_writeBlock_self _ _ _
    · rw [Memory.readBlock_writeBlock_disjoint _ _ _ _ (by simp only [State.dstBlock]; omega)]
      exact ih (by omega)

end Sys2Proof.Machine
end

