-- ==== Sys2Proof/Laws/PerInstr.lean ====
section
/-! SUPPORT. Per-instruction facts: the fields of every command's word are well-formed (30_encoding.md R71 to R73). -/

namespace Sys2Proof.Laws

/-- The fields the encoder gives a command pass the check of WellFormed.lean. -/
def FieldsWellFormed.Statement (i : Instr) : Prop :=
  i.fields.wf = true

theorem FieldsWellFormed.init : FieldsWellFormed.Statement .init := rfl
theorem FieldsWellFormed.encb : FieldsWellFormed.Statement .encb := rfl
theorem FieldsWellFormed.decb : FieldsWellFormed.Statement .decb := rfl
theorem FieldsWellFormed.ecbe : FieldsWellFormed.Statement .ecbe := rfl
theorem FieldsWellFormed.ecbd : FieldsWellFormed.Statement .ecbd := rfl
theorem FieldsWellFormed.cbce : FieldsWellFormed.Statement .cbce := rfl
theorem FieldsWellFormed.cbcd : FieldsWellFormed.Statement .cbcd := rfl

end Sys2Proof.Laws
end

