-- ==== Sys2Proof/Laws/Permute.lean ====
section
/-! SUPPORT. Each bit of a permuted and of a rotated value, by index. -/

namespace Sys2Proof.Machine

theorem getLsbD_foldl_shiftConcat {n w : Nat} (t : List Nat) (v : BitVec w) (acc : BitVec n) (i : Nat) :
    (t.foldl (fun result p => result.shiftConcat (bitAt v p)) acc).getLsbD i =
      (decide (i < n) && if i < t.length then bitAt v (t.getD (t.length - 1 - i) 0) else acc.getLsbD (i - t.length)) := by
  induction t generalizing acc with
  | nil =>
    by_cases h : i < n
    · simp [h]
    · simp [BitVec.getLsbD_of_ge acc i (by omega)]
  | cons p t ih =>
    simp only [List.foldl_cons, ih, List.length_cons]
    by_cases hn : i < n
    · simp only [hn, decide_true, Bool.true_and]
      by_cases h1 : i < t.length
      · have h3 : t.length + 1 - 1 - i = (t.length - 1 - i) + 1 := by omega
        rw [if_pos h1, if_pos (by omega), h3, List.getD_cons_succ]
      · rw [if_neg h1, BitVec.getLsbD_shiftConcat, decide_eq_true (by omega : i - t.length < n), Bool.true_and]
        by_cases h2 : i = t.length
        · rw [if_pos (by omega), if_pos (by omega), show t.length + 1 - 1 - i = 0 by omega, List.getD_cons_zero]
        · rw [if_neg (by omega), if_neg (by omega), show i - t.length - 1 = i - (t.length + 1) by omega]
    · simp [hn]

/-- PERMUTE in index form: result[n - i] = v[w - T[i]], here with i counted from 0 at the last entry (40_permutation.md
R100). -/
theorem getLsbD_permute {n w : Nat} {t : List Nat} (hn : t.length = n) (v : BitVec w) {i : Nat} (h : i < n) :
    (permute n t v).getLsbD i = bitAt v (t.getD (n - 1 - i) 0) := by
  rw [permute, getLsbD_foldl_shiftConcat]
  simp [h, hn]

theorem bitAt_eq_getLsbD {w : Nat} (v : BitVec w) (p : Nat) : bitAt v p = v.getLsbD (w - p) := rfl

/-- ROTL in index form (40_permutation.md R103). -/
theorem getLsbD_rotl {w s : Nat} (hs : 1 ≤ s) (hw : s ≤ w) (v : BitVec w) {i : Nat} (h : i < w) :
    (rotl s v).getLsbD i = v.getLsbD ((i + (w - s)) % w) := by
  simp only [rotl, BitVec.getLsbD_or, BitVec.getLsbD_shiftLeft, BitVec.getLsbD_ushiftRight, h, decide_true, Bool.true_and]
  by_cases hi : i < s
  · rw [Nat.mod_eq_of_lt (by omega)]
    simp [hi, Nat.add_comm]
  · have : (i + (w - s)) % w = i - s := by
      rw [show i + (w - s) = (i - s) + w by omega, Nat.add_mod_right, Nat.mod_eq_of_lt (by omega)]
    rw [this, BitVec.getLsbD_of_ge v (w - s + i) (by omega)]
    simp [hi]

/-- Rotations add (41_key_schedule.md R122 rests on it). -/
theorem rotl_rotl {w s r : Nat} (hs : 1 ≤ s) (hr : 1 ≤ r) (h : s + r ≤ w) (v : BitVec w) :
    rotl r (rotl s v) = rotl (s + r) v := by
  apply BitVec.eq_of_getLsbD_eq
  intro i hi
  rw [getLsbD_rotl hr (by omega) _ hi, getLsbD_rotl hs (by omega) _ (Nat.mod_lt _ (by omega)),
    getLsbD_rotl (by omega) h _ hi]
  congr 1
  rw [Nat.mod_add_mod, show i + (w - r) + (w - s) = i + (w - (s + r)) + w by omega, Nat.add_mod_right]

end Sys2Proof.Machine
end

