-- ==== Sys2Proof/Laws/Step.lean ====
section
/-! SUPPORT. Everything a step can do: one case per host action. -/

namespace Sys2Proof.Machine

/-- The outcomes of a command: rejected with STATUS alone changed, or completed with what its rule writes. -/
theorem exec_cases (i : Instr) (s : State) :
    (i = .init ∧ exec i s =
      .next { s with regs := { s.regs with k := keySchedule s.regs.key }, status := s.status.completedInit }) ∨
    (i ≠ .init ∧ s.status.kvalid = false ∧ exec i s = .next (s.reject .nokey)) ∨
    (s.status.kvalid = true ∧ ∃ dir, exec i s = .next
      { s with regs := { s.regs with dout := crypt dir s.regs.k s.regs.din }, status := s.status.completed } ∧
      ((i = .encb ∧ dir = .enc) ∨ (i = .decb ∧ dir = .dec))) ∨
    (i ∈ bufferInstrs ∧ s.status.kvalid = true ∧ ¬ LengthFits s ∧ exec i s = .next (s.reject .len)) ∨
    (i ∈ bufferInstrs ∧ s.status.kvalid = true ∧ LengthFits s ∧ ¬ BuffersFit s ∧ exec i s = .next (s.reject .addr)) ∨
    (i ∈ bufferInstrs ∧ BufferAccepted s ∧ ∃ f : BlockFn, exec i s =
      .next { s with mem := (runAfter f s s.numBlocks).mem, status := s.status.completed }) := by
  by_cases hb : i ∈ bufferInstrs
  · obtain ⟨f, hf, -⟩ := exec_buffer hb s
    have hi : i ≠ .init := by rintro rfl; simp [bufferInstrs] at hb
    rw [hf]
    rcases bufferCommand_cases f s with ⟨h, e⟩ | ⟨h, hl, e⟩ | ⟨h, hl, hr, e⟩ | ⟨h, e⟩
    · exact .inr (.inl ⟨hi, h, e⟩)
    · exact .inr (.inr (.inr (.inl ⟨hb, h, hl, e⟩)))
    · exact .inr (.inr (.inr (.inr (.inl ⟨hb, h, hl, hr, e⟩))))
    · exact .inr (.inr (.inr (.inr (.inr ⟨hb, h, f, e⟩))))
  · cases i with
    | init => exact .inl ⟨rfl, rfl⟩
    | encb =>
      rcases blockCommand_cases .enc s with ⟨h, e⟩ | ⟨h, e⟩
      · exact .inr (.inl ⟨by simp, h, e⟩)
      · exact .inr (.inr (.inl ⟨h, .enc, e, .inl ⟨rfl, rfl⟩⟩))
    | decb =>
      rcases blockCommand_cases .dec s with ⟨h, e⟩ | ⟨h, e⟩
      · exact .inr (.inl ⟨by simp, h, e⟩)
      · exact .inr (.inr (.inl ⟨h, .dec, e, .inr ⟨rfl, rfl⟩⟩))
    | ecbe => simp [bufferInstrs] at hb
    | ecbd => simp [bufferInstrs] at hb
    | cbce => simp [bufferInstrs] at hb
    | cbcd => simp [bufferInstrs] at hb

theorem State.popAction_config (s : State) : s.popAction.config = s.config := rfl
theorem State.popAction_regs (s : State) : s.popAction.regs = s.regs := rfl
theorem State.popAction_status (s : State) : s.popAction.status = s.status := rfl
theorem State.popAction_mem (s : State) : s.popAction.mem = s.mem := rfl

/-- A step is idle with no action left, and else performs the next action on the state without it. -/
theorem step_eq (s : State) :
    (s.nextAction = none ∧ step s = .next s) ∨ ∃ a, s.nextAction = some a ∧ step s = perform a s.popAction := by
  unfold step stepScript State.nextAction State.popAction
  cases h : s.script with
  | nil => exact .inl ⟨rfl, rfl⟩
  | cons a rest => exact .inr ⟨a, rfl, rfl⟩

theorem step_of_nextAction {s : State} {a : HostAction} (h : s.nextAction = some a) : step s = perform a s.popAction := by
  rcases step_eq s with ⟨hn, -⟩ | ⟨b, hb, e⟩
  · simp [h] at hn
  · rw [h, Option.some.injEq] at hb; rw [hb, e]

end Sys2Proof.Machine
end

