-- ==== Sys2Proof/Tests/Slice0.lean ====
section
/-! SUPPORT. Tests. Expected values come from spec/: the vectors V10 .. V76 of 95_test_vectors.md where a comment names one,
else the rule named. First the smoke tests of well-formedness and decoding, then values, then single steps, then for each
statement with hypotheses a witness that meets them. -/

namespace Sys2Proof.Tests

open Sys2Proof.Machine

-- One declaration at a time: the kernel evaluations, run side by side, would each hold a thread's stack.
set_option Elab.async false

/-! ### Helpers -/

/-- A projection of the next state; none where there is none. -/
def after {α : Type} (r : Result) (f : State → α) : Option α :=
  match r with
  | .next t    => some (f t)
  | .fault _   => none
  | .refused _ => none

/-- K[1] .. K[16] of the KAT key, from V30. -/
def katKeys : Subkeys :=
  #v[0x1B02EFFC7072#48, 0x79AED9DBC9E5#48, 0x55FC8A42CF99#48, 0x72ADD6DB351D#48, 0x7CEC07EB53A8#48, 0x63A53E507B2F#48,
    0xEC84B7F618BC#48, 0xF78A3AC13BFB#48, 0xE0DBEBEDE781#48, 0xB1F347BA464F#48, 0x215FD3DED386#48, 0x7571F59467E9#48,
    0x97C5D1FABA41#48, 0x5F43B7F2E73A#48, 0xBF918D3D3F0A#48, 0xCB3D8B0E17F5#48]

/-- Cells of consecutive addresses from a upward. -/
def cellsAt : Nat → List Byte → Memory
  | _, []      => []
  | a, b :: bs => (a, b) :: cellsAt (a + 1) bs

/-- The plaintext block of V1. -/
def plain : List Byte := [0x01#8, 0x23#8, 0x45#8, 0x67#8, 0x89#8, 0xAB#8, 0xCD#8, 0xEF#8]

/-- The ciphertext block of V1. -/
def cipher : List Byte := [0x85#8, 0xE8#8, 0x13#8, 0x54#8, 0x0F#8, 0x0A#8, 0xB4#8, 0x05#8]

/-- A core with the context of the KAT key, its plaintext in DIN, and two plaintext blocks at 0x1000. -/
def ready : State :=
  { State.reset with
    status := 0x01#8
    regs := { Regs.zero with k := katKeys, din := 0x0123456789ABCDEF#64 }
    mem := cellsAt 0x1000 (plain ++ plain) }

/-- The buffer registers. -/
def buf (s : State) (src dst len : BitVec 64) : State :=
  { s with regs := { s.regs with src := src, dst := dst, len := len } }

/-- A state with one host action to come. -/
def doing (s : State) (a : HostAction) : State :=
  { s with script := [a] }

/-- A platform whose memory ends at 0x10000 (V73). -/
def smallMemory (s : State) : State :=
  { s with config := { s.config with memAdmit := .ranges [(0, 0x10000)] } }

/-- The other length policy (V72). -/
def truncating (s : State) : State :=
  { s with config := { s.config with lenPolicy := .truncate } }

/-- Bytes read from memory. -/
def bytesAt (m : Memory) (a n : Nat) : List Byte :=
  (List.range n).map fun t => m.read (a + t)

/-! ### Well-formedness: an ill-formed term for each check -/

theorem test_wf_zero_field : (CmdFields.ofWord 0x12#8).wf = false := by decide
theorem test_wf_op_low : (CmdFields.ofWord 0x00#8).wf = false := by decide
theorem test_wf_op_high : (CmdFields.ofWord 0x0A#8).wf = false := by decide
theorem test_wf_init_dir : (CmdFields.ofWord 0x03#8).wf = false := by decide
theorem test_wf_table_zero : tableWf 4 [1, 0, 2] = false := by decide
theorem test_wf_table_large : tableWf 4 [1, 5, 2] = false := by decide
theorem test_wf_aw_low : Config.wf { Config.default with aw := 3 } = false := by decide
theorem test_wf_aw_high : Config.wf { Config.default with aw := 65 } = false := by decide
theorem test_wf_default : Config.default.wf = true ∧ Config.wf { Config.default with aw := 4 } = true ∧
    Config.wf { Config.default with aw := 64 } = true := by decide

/-! ### Decoding: every command's word bit by bit, ZERO OP DIR (30_encoding.md R71, R72) -/

theorem test_decode_init : decode (0b0000#4 ++ 0b001#3 ++ 0b0#1) = .ok .init := by decide
theorem test_decode_encb : decode (0b0000#4 ++ 0b010#3 ++ 0b0#1) = .ok .encb := by decide
theorem test_decode_decb : decode (0b0000#4 ++ 0b010#3 ++ 0b1#1) = .ok .decb := by decide
theorem test_decode_ecbe : decode (0b0000#4 ++ 0b011#3 ++ 0b0#1) = .ok .ecbe := by decide
theorem test_decode_ecbd : decode (0b0000#4 ++ 0b011#3 ++ 0b1#1) = .ok .ecbd := by decide
theorem test_decode_cbce : decode (0b0000#4 ++ 0b100#3 ++ 0b0#1) = .ok .cbce := by decide
theorem test_decode_cbcd : decode (0b0000#4 ++ 0b100#3 ++ 0b1#1) = .ok .cbcd := by decide
theorem test_decode_illegal : decode 0x00#8 = .error .opUnassigned ∧ decode 0x01#8 = .error .opUnassigned ∧
    decode 0x03#8 = .error .initWithDir ∧ decode 0x0A#8 = .error .opUnassigned ∧ decode 0x0F#8 = .error .opUnassigned ∧
    decode 0x12#8 = .error .zeroFieldSet ∧ decode 0xFF#8 = .error .zeroFieldSet := by decide

/-! ### Values of the pure functions -/

-- V10
theorem test_permute_ip : permute 64 tableIP 0x0123456789ABCDEF#64 = 0xCC00CCFFF0AAF0AA#64 ∧
    permute 64 tableIP 0x0000000000000040#64 = 0x8000000000000000#64 := by decide +kernel
theorem test_permute_fp : permute 64 tableFP 0x0A4CD99543423234#64 = 0x85E813540F0AB405#64 := by decide +kernel
-- V11, V12, V13, V14
theorem test_permute_e : permute 48 tableE 0x80000001#32 = 0xC00000000003#48 := by decide +kernel
theorem test_permute_p : permute 32 tableP 0x5C82B597#32 = 0x234AA9BB#32 := by decide +kernel
theorem test_permute_pc1 : permute 56 tablePC1 0x133457799BBCDFF1#64 = 0xF0CCAAF556678F#56 := by decide +kernel
theorem test_permute_pc2 : permute 48 tablePC2 0x00040000000000#56 = 0x800000000000#48 := by decide +kernel
-- V20
theorem test_rotl : rotl 1 0x8000000#28 = 0x0000001#28 ∧ rotl 27 0x0000001#28 = 0x8000000#28 ∧
    rotl 28 0xF0CCAAF#28 = 0xF0CCAAF#28 ∧ rotl 1 0x1#1 = 0x1#1 := by decide +kernel
-- V30, all sixteen
theorem test_key_schedule : keySchedule 0x133457799BBCDFF1#64 = katKeys := by decide +kernel
-- V40; V41 row 7
theorem test_round_function : roundF 0xF0AAF0AA#32 0x1B02EFFC7072#48 = 0x234AA9BB#32 ∧
    roundF 0x43423234#32 0xCB3D8B0E17F5#48 = 0xC8C04F98#32 := by decide +kernel
-- V42, the rows that tell the two readings of the outer bits apart
theorem test_sbox : ((List.range 8).map fun g => (sbox (g + 1) 0b000001#6).toNat) = [0, 3, 13, 13, 14, 10, 13, 1] ∧
    ((List.range 8).map fun g => (sbox (g + 1) 0b100000#6).toNat) = [4, 0, 13, 10, 4, 9, 1, 7] := by decide +kernel
-- V50, rounds 1 and 15; V51, round 1
theorem test_halves : halvesAfter .enc katKeys 0x0123456789ABCDEF#64 1 = { l := 0xF0AAF0AA#32, r := 0xEF4A6544#32 } ∧
    halvesAfter .enc katKeys 0x0123456789ABCDEF#64 15 = { l := 0xC28C960D#32, r := 0x43423234#32 } ∧
    halvesAfter .dec katKeys 0x85E813540F0AB405#64 1 = { l := 0x43423234#32, r := 0xC28C960D#32 } := by decide +kernel

/-! ### Single steps -/

-- V33: INIT on the KAT key; and INIT with the sticky flag E_NOKEY set (V55)
theorem test_init_status : after (exec .init State.reset) (·.status) = some 0x01#8 ∧
    after (exec .init { State.reset with status := 0x24#8 }) (·.status) = some 0x21#8 := by decide +kernel
theorem test_init_subkeys : after (exec .init { State.reset with regs := { Regs.zero with key := 0x133457799BBCDFF1#64 } })
    (fun t => (t.regs.k.get 0, t.regs.k.get 15)) = some (0x1B02EFFC7072#48, 0xCB3D8B0E17F5#48) := by decide +kernel
-- V50, V55
theorem test_encb : after (exec .encb ready) (fun t => (t.regs.dout, t.status)) = some (0x85E813540F0AB405#64, 0x01#8) := by
  decide +kernel
theorem test_encb_nokey : after (exec .encb State.reset) (·.status) = some 0x24#8 := by decide +kernel
-- V52, row 6
theorem test_decb : after (exec .decb { ready with regs := { ready.regs with din := 0x0123456789ABCDEE#64 } })
    (fun t => (t.regs.dout, t.status)) = some (0x22BE0C1ABBE5BA7F#64, 0x01#8) := by decide +kernel
theorem test_decb_nokey : after (exec .decb State.reset) (·.status) = some 0x24#8 := by decide +kernel
-- V67, the overlap hazard
theorem test_ecbe_overlap : after (exec .ecbe (buf ready 0x1000#64 0x1008#64 0x10#64)) (fun t => (bytesAt t.mem 0x1000 24, t.status)) =
    some (plain ++ cipher ++ [0x67#8, 0xAE#8, 0x7A#8, 0x29#8, 0x61#8, 0xDF#8, 0xA3#8, 0x45#8], 0x01#8) := by decide +kernel
-- V72, truncate, LEN = 0x0C
theorem test_ecbe_truncate : after (exec .ecbe (buf (truncating ready) 0x1000#64 0x2000#64 0x0C#64))
    (fun t => (bytesAt t.mem 0x2000 16, t.status)) = some (cipher ++ List.replicate 8 0x00#8, 0x01#8) := by decide +kernel
-- V60 read backwards, at an odd address (R55)
theorem test_ecbd : after (exec .ecbd (buf { ready with mem := cellsAt 0x1003 (cipher ++ cipher) } 0x1003#64 0x1003#64 0x10#64))
    (fun t => bytesAt t.mem 0x1003 16) = some (plain ++ plain) := by decide +kernel
-- V73, last row
theorem test_ecbd_addr : after (exec .ecbd (buf (smallMemory ready) 0x10000#64 0x2000#64 0x8#64)) (·.status) = some 0x89#8 := by
  decide +kernel
-- V62
theorem test_cbce : after (exec .cbce (buf ready 0x1000#64 0x2000#64 0x10#64)) (fun t => (bytesAt t.mem 0x2000 16, t.regs.iv)) =
    some (cipher ++ [0xEB#8, 0x46#8, 0x29#8, 0x11#8, 0x66#8, 0x49#8, 0x3C#8, 0xD4#8], 0x0#64) := by decide +kernel
-- V73, row 3
theorem test_cbce_addr : after (exec .cbce (buf ready 0x1000#64 0xFFFFFFF0#64 0x18#64)) (·.status) = some 0x89#8 := by
  decide +kernel
-- V63
theorem test_cbcd : after (exec .cbcd (buf { ready with mem := cellsAt 0x1000 (cipher ++
    [0xEB#8, 0x46#8, 0x29#8, 0x11#8, 0x66#8, 0x49#8, 0x3C#8, 0xD4#8]) } 0x1000#64 0x2000#64 0x10#64))
    (fun t => bytesAt t.mem 0x2000 16) = some (plain ++ plain) := by decide +kernel
-- V75
theorem test_cbcd_no_blocks : after (exec .cbcd (buf ready 0xFFFFFFFF#64 0xFFFFFFFF#64 0x0#64)) (fun t => (t.status, t.mem == ready.mem)) =
    some (0x01#8, true) := by decide +kernel
-- V70
theorem test_illegal_word : after (step (doing State.reset (.issue 0x03#8))) (·.status) = some 0x12#8 ∧
    after (step (doing ready (.issue 0x03#8))) (·.status) = some 0x13#8 := by decide +kernel
-- V74, each line from the status that the line before leaves
theorem test_priority : after (step (doing (buf State.reset 0xFFFFFFFC#64 0x2000#64 0x0C#64) (.issue 0x0E#8))) (·.status) = some 0x12#8 ∧
    after (exec .ecbe (buf { State.reset with status := 0x12#8 } 0xFFFFFFFC#64 0x2000#64 0x0C#64)) (·.status) = some 0x34#8 ∧
    after (exec .ecbe (buf { ready with status := 0x31#8 } 0xFFFFFFFC#64 0x2000#64 0x0C#64)) (·.status) = some 0x77#8 ∧
    after (exec .ecbe (buf { ready with status := 0x77#8 } 0xFFFFFFFC#64 0x2000#64 0x10#64)) (·.status) = some 0xF9#8 := by
  decide +kernel
-- V76
theorem test_reg_write : after (step (doing ready (.regWrite 3#5 0xDEADBEEF00C0FFEE#64))) (fun t => (t.regs.din, t.status)) =
    some (0xDEADBEEF00C0FFEE#64, 0x01#8) ∧
    after (step (doing ready (.regWrite 16#5 0x0#64))) (·.regs.k.get 0) = some 0x1B02EFFC7072#48 := by decide +kernel
theorem test_reg_read : after (step (doing ready (.regRead 31#5))) (·.replies) = some [.reg 31#5 0xCB3D8B0E17F5#64] ∧
    after (step (doing ready (.regRead 15#5))) (·.replies) = some [.reg 15#5 0x0#64] := by decide +kernel
-- V77
theorem test_reset_action : after (step (doing { ready with status := 0xF1#8 } .reset)) (·.status) = some 0x00#8 := by
  decide +kernel
-- the memory keeps its form: a byte equal to what an unlisted address reads as is not listed
theorem test_memory_write : Memory.write [(4, 1#8), (6, 2#8)] 5 9#8 = [(4, 1#8), (5, 9#8), (6, 2#8)] ∧
    Memory.write [(4, 1#8), (6, 2#8)] 6 0#8 = [(4, 1#8)] := by decide +kernel
-- how the host's table word reaches step
theorem test_fetch_word : after (step (State.reset.withFetchWord 8 2)) (·.status) = some 0x01#8 ∧
    decodeTableWord 8 9 = some .cbcd ∧ decodeTableWord 8 10 = none := by decide +kernel

/-! ### Witnesses: concrete states and operands that meet the hypotheses of each statement

A witness is named after the statement it is for; one that several statements share says so. -/

/-- A state whose two buffers, at 0x1000 and 0x2000, are disjoint. -/
def apart : State := buf ready 0x1000#64 0x2000#64 0x10#64

/-- In the invariant, so not only State.reset meets it. -/
theorem ready_legal (p : LenPolicy) : StatusLegal p 0x01#8 where
  lasterr_le := by decide
  lasterr_sticky := by intro c; cases c <;> decide
  nokey_no_key := by decide
  len_has_key := by decide
  addr_has_key := by decide
  fresh := by decide
  truncate_no_len := fun _ => by decide

theorem accepted_of (s : State) (hk : s.status.kvalid = true)
    (hl : s.regs.len.toNat % 8 = 0 ∨ s.config.lenPolicy = .truncate)
    (hb : (bufferInRange s.config s.regs.src.toNat (8 * s.numBlocks) &&
      bufferInRange s.config s.regs.dst.toNat (8 * s.numBlocks)) = true) : BufferAccepted s :=
  ⟨hk, hl, (buffersFit_iff s).mpr hb⟩

theorem not_fit_of (s : State)
    (hb : (bufferInRange s.config s.regs.src.toNat (8 * s.numBlocks) &&
      bufferInRange s.config s.regs.dst.toNat (8 * s.numBlocks)) = false) : ¬ BuffersFit s := by
  rw [buffersFit_iff, hb]; simp

theorem witness_DecodeInvertsEncode : decode 0x02#8 = .ok .init ∧ decode 0x09#8 = .ok .cbcd := by decide

theorem witness_RegisterNumbersNameTheRegisters : (8 ≤ (8#5).toNat ∧ (8#5).toNat ≤ 15) ∧ 8 ≤ (15#5).toNat ∧ (15#5).toNat ≤ 15 := by
  decide

theorem witness_StepRunsTheDecodedCommand : (doing ready (.issue 0x06#8)).nextAction = some (.issue 0x06#8) ∧
    decode 0x06#8 = .ok .ecbe := by decide +kernel

theorem witness_IllegalWordsAreRejected : ∀ c ∈ [0x00#8, 0x01#8, 0x03#8, 0x0A#8, 0xFF#8],
    (doing ready (.issue c)).nextAction = some (.issue c) ∧ (c = 0x00#8 ∨ c = 0x01#8 ∨ c = 0x03#8 ∨ 0x0A ≤ c.toNat) := by
  decide +kernel

theorem witness_RegisterAccessIsWhole_write : ∀ e ∈ [(1#5, Reg.key, 0xFFFFFFFFFFFFFFFF#64), (3#5, .din, 0x0#64),
    (5#5, .src, 0xFFFFFFFF#64), (7#5, .len, 0xFFFFFFFF#64)],
    Reg.ofNumber e.1 = some e.2.1 ∧ e.2.1.writable = true ∧ e.2.2.toNat < 2 ^ e.2.1.width ready.config ∧
      (doing ready (.regWrite e.1 e.2.2)).nextAction = some (.regWrite e.1 e.2.2) := by
  decide +kernel

theorem witness_RegisterAccessIsWhole_read : ∀ e ∈ [(0#5, Reg.status), (4#5, .dout), (16#5, .subkey 0), (31#5, .subkey 15)],
    Reg.ofNumber e.1 = some e.2 ∧ (doing ready (.regRead e.1)).nextAction = some (.regRead e.1) := by
  decide +kernel

theorem witness_ReadOnlyAndUnassignedNumbers_write : ∀ n ∈ [0#5, 4#5, 16#5, 31#5, 8#5, 15#5],
    (n = 0#5 ∨ n = 4#5 ∨ 16 ≤ n.toNat ∨ (8 ≤ n.toNat ∧ n.toNat ≤ 15)) ∧
      (doing ready (.regWrite n 0xFF#64)).nextAction = some (.regWrite n 0xFF#64) := by
  decide +kernel

theorem witness_ReadOnlyAndUnassignedNumbers_read : ∀ n ∈ [8#5, 15#5],
    (8 ≤ n.toNat ∧ n.toNat ≤ 15) ∧ (doing ready (.regRead n)).nextAction = some (.regRead n) := by
  decide +kernel

theorem witness_OnlyResetClearsStatus_reset : (doing ready .reset).nextAction = some .reset := rfl

/-- A step that is no Reset, from a state with KVALID and all sticky flags set. Also for KvalidIsSetByInitOnly,
ContextIsImmutable (its first clause) and StepsKeepTheConfiguration. -/
theorem witness_OnlyResetClearsStatus_other : (doing { ready with status := 0xF1#8 } (.issue 0x04#8)).nextAction ≠ some .reset ∧
    (doing ready (.issue 0x04#8)).nextAction ≠ some (.issue 0x02#8) ∧ Status.kvalid 0xF1#8 = true ∧
    (∀ c, Status.sticky 0xF1#8 c = true) ∧
    ∃ t, step (doing { ready with status := 0xF1#8 } (.issue 0x04#8)) = .next t :=
  ⟨by decide, by decide, by decide, by intro c; cases c <;> decide, _, rfl⟩

/-- A step that issues INIT. Also for ContextIsImmutable (its second clause). -/
theorem witness_KvalidIsSetByInitOnly : (doing State.reset (.issue 0x02#8)).nextAction = some (.issue 0x02#8) ∧
    (∃ t, step (doing State.reset (.issue 0x02#8)) = .next t) ∧ Instr.encb ≠ .init ∧ State.reset.status.kvalid = false :=
  ⟨rfl, ⟨_, rfl⟩, by decide, by decide⟩

theorem witness_HostMemoryAccess : ∀ a ∈ [0, 0xFFFFFFFF], admits ready.config a = true ∧
    (doing ready (.memWrite a 0x5A#8)).nextAction = some (.memWrite a 0x5A#8) ∧
    (doing ready (.memRead a)).nextAction = some (.memRead a) := by
  decide +kernel

theorem witness_HostMemoryAccess_absent : admits ready.config 0x100000000 = false ∧
    admits (smallMemory ready).config 0x10000 = false ∧
    (doing ready (.memRead 0x100000000)).nextAction = some (.memRead 0x100000000) := by
  decide +kernel

theorem witness_StepsStopOnlyOnHostMisuse : ready.nextAction = none ∧
    step (doing ready (.memRead 0x100000000)) = .fault (.noSuchAddress 0x100000000) ∧
    step (doing ready (.regWrite 5#5 0x100000000#64)) = .refused (.valueWiderThanRegister 5#5) :=
  ⟨rfl, rfl, rfl⟩

/-- A completion, told from a rejection by LASTERR. Also for RegisterCommandFrame. -/
theorem witness_CompletionStatus : ∀ i ∈ [Instr.init, .encb, .decb], ∃ t, exec i ready = .next t ∧ t.status.lasterr = 0#3 ∧
    ∀ c, t ≠ ready.reject c := by
  intro i hi
  have key : ∀ t : State, t.status.lasterr = 0#3 → ∀ c, t ≠ ready.reject c := fun t ht c hc =>
    Status.lasterr_rejected_ne_zero ready.status c (by rw [hc] at ht; exact ht)
  simp only [List.mem_cons, List.not_mem_nil, or_false] at hi
  rcases hi with rfl | rfl | rfl
  · exact ⟨_, rfl, by decide, key _ (by decide)⟩
  · exact ⟨_, rfl, by decide, key _ (by decide)⟩
  · exact ⟨_, rfl, by decide, key _ (by decide)⟩

theorem witness_RejectionPriority_illcmd : ¬ ∃ i, decode 0x0E#8 = .ok i := by
  rintro ⟨i, hi⟩; cases i <;> revert hi <;> decide

theorem witness_RejectionPriority : (doing apart (.issue 0x06#8)).nextAction = some (.issue 0x06#8) ∧
    decode 0x06#8 = .ok .ecbe ∧ Instr.ecbe ≠ .init ∧ Instr.ecbe ∈ bufferInstrs ∧ Instr.encb ∉ bufferInstrs := by
  decide +kernel

/-- What the rejecting clauses of the buffer commands ask: LEN one past a block, and a buffer one byte past the end of the
address space, or past the platform's memory. For RejectionPriority and the four buffer commands. -/
theorem witness_buffer_rejections : State.reset.status.kvalid = false ∧
    (∃ s, s.status.kvalid = true ∧ ¬ LengthFits s) ∧ (∃ s, s.status.kvalid = true ∧ LengthFits s ∧ ¬ BuffersFit s) ∧
    ∃ s, s.status.kvalid = true ∧ s.config.memAdmit ≠ .all ∧ LengthFits s ∧ ¬ BuffersFit s := by
  refine ⟨by decide, ⟨buf ready 0x1000#64 0x2000#64 0x9#64, by decide, ?_⟩,
    ⟨buf ready 0xFFFFFFF9#64 0x2000#64 0x8#64, by decide, .inl (by decide), not_fit_of _ (by decide +kernel)⟩,
    ⟨buf (smallMemory ready) 0x1000#64 0xFFF8#64 0x10#64, by decide, by decide, .inl (by decide), not_fit_of _ (by decide +kernel)⟩⟩
  unfold LengthFits; decide

/-- An accepted state with two blocks, apart, in no hazard. For the four buffer commands, BufferCommandFrame,
RejectionPriority and BufferCommandsComputeTheirMode. -/
theorem witness_buffer_accepted : BufferAccepted apart ∧ HazardFree apart ∧
    (∀ a, InInput apart a → ¬ InOutput apart a) ∧ ∀ i ∈ bufferInstrs, ∃ t, exec i apart = .next t := by
  have h : BufferAccepted apart := accepted_of _ (by decide) (.inl (by decide)) (by decide +kernel)
  refine ⟨h, by unfold HazardFree; decide +kernel, ?_, fun i hi => ?_⟩
  · rintro a ⟨j, hj, h1, h2⟩ ⟨q, hq, h3, h4⟩
    have e1 : apart.numBlocks = 2 := by decide +kernel
    have e2 : apart.srcBlock j = 0x1000 + 8 * j := rfl
    have e3 : apart.dstBlock q = 0x2000 + 8 * q := rfl
    omega
  · obtain ⟨f, hf, -⟩ := exec_buffer hi apart
    rcases bufferCommand_cases f apart with ⟨-, e⟩ | ⟨-, -, e⟩ | ⟨-, -, -, e⟩ | ⟨-, e⟩ <;> exact ⟨_, hf.trans e⟩

/-- The last block of the address space is accepted (V73, row 1), and so is the last block of the platform's memory. -/
theorem witness_buffer_accepted_at_the_edge : BufferAccepted (buf ready 0xFFFFFFF8#64 0x2000#64 0x8#64) ∧
    BufferAccepted (buf (smallMemory ready) 0x1000#64 0xFFF8#64 0x8#64) :=
  ⟨accepted_of _ (by decide) (.inl (by decide)) (by decide +kernel), accepted_of _ (by decide) (.inl (by decide)) (by decide +kernel)⟩

theorem witness_PermuteRoutesPositions : tableE.length = 48 ∧ tableWf 32 tableE = true ∧ tablePC2.length = 48 ∧
    tableWf 56 tablePC2 = true := by decide +kernel

theorem witness_RotateMovesPositions : 1 ≤ 1 ∧ 1 ≤ 28 ∧ 28 ≤ 28 := by decide

theorem witness_ParityBitsAffectNoSubkey : ∀ p, 1 ≤ p → p ≤ 64 → bitAt 0x0101010101010101#64 p = true → p % 8 = 0 := by
  intro p h1 h2; interval_cases p <;> decide

/-- The ends of the ranges over which rounds, positions, groups, bytes and table entries run, for RotationsAccumulateAndReturn,
SubkeyBitsComeFromTheirHalf, SboxRowsAndColumns, RoundFunctionSteps, DecryptionMirrorsEncryption, FinalPermutationInvertsInitial,
BlockReadIsBigEndian and BlockWriteStoresEightBytes; PermuteIsLinear shares the tables of witness_PermuteRoutesPositions. -/
theorem witness_ranges : (1 ≤ 1 ∧ 1 ≤ 16 ∧ 16 ≤ 16 ∧ 0 < 16 ∧ 15 < 16) ∧ (1 ≤ 24 ∧ 24 ≤ 24 ∧ 25 ≤ 25 ∧ 25 ≤ 48 ∧ 48 ≤ 48) ∧
    (1 ≤ 8 ∧ 8 ≤ 8) ∧ (0 ≤ 16) ∧ (0 < 64 ∧ 63 < 64) ∧ (0 < 8 ∧ 7 < 8) ∧ (0x1008 < 0x1000 ∨ 0x1000 + 8 ≤ 0x1008) := by decide

/-- For AfterResetOnlyInitCompletes and CbcDiffusion's index. -/
theorem witness_AfterResetOnlyInitCompletes : Instr.encb ≠ .init ∧ Instr.cbcd ≠ .init ∧ 2 < ([1#64, 2#64] : List Block).length + 1 := by
  decide

/-- V31's key of halves zeros and ones, and one of the four named keys. -/
theorem witness_UniformHalvesGiveEqualSubkeys : ((keyHalves 0x1E1E1E1E0E0E0E0E#64 0).c = 0#28 ∧
    (keyHalves 0x1E1E1E1E0E0E0E0E#64 0).d = BitVec.allOnes 28) ∧
    (keyHalves 0xFEFEFEFEFEFEFEFE#64 0).c = BitVec.allOnes 28 ∧ (keyHalves 0x0101010101010101#64 0).d = 0#28 := by
  decide +kernel

/-- V41, rows 1 and 3. -/
theorem witness_RoundFunctionSteps : permute 48 tableE 0x00000000#32 ^^^ 0x000000000000#48 =
    permute 48 tableE 0xFFFFFFFF#32 ^^^ 0xFFFFFFFFFFFF#48 := by decide +kernel

/-- With a context and without. For EncbEncryptsDin, DecbDecryptsDin and EncbThenDecbReturnsTheBlock. -/
theorem witness_context : ready.status.kvalid = true ∧ State.reset.status.kvalid = false := by decide

theorem witness_BlockWriteStoresEightBytes : Memory.wf (cellsAt 0x1000 plain) := by decide +kernel

/-- Both sides of the range check, at its edge and with no blocks. -/
theorem witness_RangeCheckRejectsAddr : LengthFits (buf ready 0xFFFFFFF8#64 0x2000#64 0x8#64) ∧
    LengthFits (buf ready 0xFFFFFFFF#64 0xFFFFFFFF#64 0x0#64) ∧
    8 * ((buf ready 0xFFFFFFFF#64 0xFFFFFFFF#64 0x0#64).regs.len.toNat / 8) = 0 ∧
    (buf ready 0xFFFFFFF8#64 0x2000#64 0x8#64).regs.src.toNat + 8 = 2 ^ Config.default.aw ∧
    LengthFits (buf ready 0xFFFFFFF9#64 0x2000#64 0x8#64) ∧
    ¬ ((buf ready 0xFFFFFFF9#64 0x2000#64 0x8#64).regs.src.toNat + 8 ≤ 2 ^ Config.default.aw) :=
  ⟨.inl (by decide), .inl (by decide), by decide, by decide, .inl (by decide), by decide⟩

theorem witness_NoBlocksTouchNothing : (buf ready 0xFFFFFFFF#64 0xFFFFFFFF#64 0x0#64).regs.len = 0#64 ∧
    (buf (truncating ready) 0x1000#64 0x2000#64 0x7#64).config.lenPolicy = .truncate ∧
    (buf (truncating ready) 0x1000#64 0x2000#64 0x7#64).regs.len.toNat < 8 := by decide

theorem witness_LengthPolicy : ((buf ready 0x1000#64 0x2000#64 0xC#64).config.lenPolicy = .reject ∧
      (buf ready 0x1000#64 0x2000#64 0xC#64).regs.len.toNat % 8 ≠ 0) ∧
    ((buf (truncating ready) 0x1000#64 0x2000#64 0xC#64).config.lenPolicy = .truncate ∧
      BuffersFit (buf (truncating ready) 0x1000#64 0x2000#64 0xC#64)) ∧ apart.regs.len.toNat % 8 = 0 :=
  ⟨by decide, ⟨by decide, (buffersFit_iff _).mpr (by decide +kernel)⟩, by decide⟩

/-- Two states that agree on what a buffer command reads and on nothing else that can differ. -/
theorem witness_BufferCommandsReadOnlyTheirOperands : ∃ s' : State, s' ≠ apart ∧ apart.status = s'.status ∧
    apart.config = s'.config ∧ apart.regs.k = s'.regs.k ∧ apart.regs.src = s'.regs.src ∧ apart.regs.dst = s'.regs.dst ∧
    apart.regs.len = s'.regs.len ∧ apart.regs.iv = s'.regs.iv ∧ apart.regs.key ≠ s'.regs.key ∧
    ∀ a, InInput apart a → apart.mem.read a = s'.mem.read a :=
  ⟨{ apart with regs := { apart.regs with key := 1#64, din := 2#64, dout := 3#64 }, replies := [.byte 0 0#8] },
    by decide +kernel, rfl, rfl, rfl, rfl, rfl, rfl, rfl, by decide, fun _ _ => rfl⟩

theorem witness_InPlaceRoundTrip : BufferAccepted (buf ready 0x1000#64 0x1000#64 0x10#64) ∧ Memory.wf ready.mem ∧
    (buf ready 0x1000#64 0x1000#64 0x10#64).regs.src = (buf ready 0x1000#64 0x1000#64 0x10#64).regs.dst :=
  ⟨accepted_of _ (by decide) (.inl (by decide)) (by decide +kernel), by decide +kernel, rfl⟩

theorem witness_EcbFunctionProperties : ([5#64, 7#64, 5#64] : List Block)[0]? = ([5#64, 7#64, 5#64] : List Block)[2]? := by decide

theorem witness_CbcDiffusion : (0x4E6F772069732074#64 : Block) ≠ 0x4F6F772069732074#64 := by decide

theorem witness_StepKeepsTheInvariant : ready.Inv ∧ ∃ t, step (doing ready (.issue 0x04#8)) = .next t :=
  ⟨{ mem_wf := by decide +kernel, mem_admitted := by decide +kernel, addr_fit := by unfold AddrRegsFit; decide +kernel,
     status_legal := ready_legal _ }, _, rfl⟩

/-- A Reset's registers that fit, on a state in the invariant. -/
theorem witness_ResetMeetsTheInvariant : AddrRegsFit (ready.resetWith { Regs.zero with src := 0xFFFFFFFF#64 }) := by
  unfold AddrRegsFit; decide +kernel

/-- A state with a context that was derived: V30. -/
theorem witness_StepKeepsTheContextDerived : ready.ContextDerived ∧ ready.status.kvalid = true :=
  ⟨fun _ => ⟨0x133457799BBCDFF1#64, test_key_schedule.symm⟩, by decide⟩

end Sys2Proof.Tests
end

section
/-! PROOFS. What each host action can do, said once: how an issued word, a register write and a memory access end, what
they leave of the configuration and of the host's side; and from these the statements of 00_scope.md. -/

namespace Sys2Proof.Machine

/-! ### Commands -/

/-- A command leaves the configuration and the host's side alone: R12's next state differs in the core and the memory
only. -/
theorem exec_frame {i : Instr} {s t : State} (h : exec i s = .next t) :
    t.config = s.config ∧ t.script = s.script ∧ t.replies = s.replies ∧ t.draws = s.draws := by
  rcases exec_cases i s with ⟨-, e⟩ | ⟨-, -, e⟩ | ⟨-, _, e, -⟩ | ⟨-, -, -, e⟩ | ⟨-, -, -, -, e⟩ | ⟨-, -, _, e⟩ <;>
  · obtain rfl := Host.Outcome.next.inj (e.symm.trans h)
    exact ⟨rfl, rfl, rfl, rfl⟩

/-- Settles O15: each of the six outcomes of `exec_cases` is a completion or a rejection. -/
theorem commandsCompleteOrAreRejected : Obligations.CommandsCompleteOrAreRejected := by
  intro i s
  rcases exec_cases i s with ⟨-, e⟩ | ⟨-, -, e⟩ | ⟨-, dir, e, -⟩ | ⟨-, -, -, e⟩ | ⟨-, -, -, -, e⟩ | ⟨-, -, f, e⟩
  · exact ⟨_, e, .inl ⟨Status.lasterr_completedInit _, Status.sticky_completedInit _⟩⟩
  · exact ⟨_, e, .inr ⟨.nokey, rfl⟩⟩
  · exact ⟨_, e, .inl ⟨Status.lasterr_completed _, Status.sticky_completed _⟩⟩
  · exact ⟨_, e, .inr ⟨.len, rfl⟩⟩
  · exact ⟨_, e, .inr ⟨.addr, rfl⟩⟩
  · exact ⟨_, e, .inl ⟨Status.lasterr_completed _, Status.sticky_completed _⟩⟩

/-! ### Host actions -/

/-- Issue runs the decoded command, or rejects an illegal word (30_encoding.md R72, R74). -/
theorem issueWord_cases (c : CommandWord) (s : State) :
    (∃ i, decode c = .ok i ∧ issueWord c s = exec i s) ∨
    (∃ e, decode c = .error e ∧ issueWord c s = .next (s.reject .illcmd)) := by
  unfold issueWord
  cases decode c with
  | ok i => exact .inl ⟨i, rfl, rfl⟩
  | error e => exact .inr ⟨e, rfl, rfl⟩

/-- Issue of any word at all ends in a next state. -/
theorem issueWord_next (c : CommandWord) (s : State) : ∃ t, issueWord c s = .next t := by
  rcases issueWord_cases c s with ⟨i, -, e⟩ | ⟨_, -, e⟩
  · obtain ⟨t, ht, -⟩ := commandsCompleteOrAreRejected i s
    exact ⟨t, e.trans ht⟩
  · exact ⟨_, e⟩

/-- Issue leaves the configuration and the host's side alone. -/
theorem issueWord_frame {c : CommandWord} {s t : State} (h : issueWord c s = .next t) :
    t.config = s.config ∧ t.script = s.script ∧ t.replies = s.replies ∧ t.draws = s.draws := by
  rcases issueWord_cases c s with ⟨i, -, e⟩ | ⟨_, -, e⟩
  · exact exec_frame (e.symm.trans h)
  · obtain rfl := Host.Outcome.next.inj (e.symm.trans h)
    exact ⟨rfl, rfl, rfl, rfl⟩

/-- Everything RegWrite can do (30_encoding.md R75, R78; log 9). -/
theorem regWrite_cases (n : BitVec 5) (v : BitVec 64) (s : State) :
    ((∀ r, Reg.ofNumber n = some r → r.writable = false) ∧ regWrite n v s = .next s) ∨
    ∃ r, Reg.ofNumber n = some r ∧ r.writable = true ∧
      ((v.toNat < 2 ^ r.width s.config ∧ regWrite n v s = .next (s.writeReg r v)) ∨
        (2 ^ r.width s.config ≤ v.toNat ∧ regWrite n v s = .refused (.valueWiderThanRegister n))) := by
  unfold regWrite
  cases Reg.ofNumber n with
  | none => exact .inl ⟨by simp, rfl⟩
  | some r =>
    cases hw : r.writable with
    | false => exact .inl ⟨by simp [hw], by simp [hw]⟩
    | true =>
      refine .inr ⟨r, rfl, hw, ?_⟩
      rcases lt_or_ge v.toNat (2 ^ r.width s.config) with hv | hv
      · exact .inl ⟨hv, by simp [hw, hv]⟩
      · exact .inr ⟨hv, by simp [hw, hv]⟩

/-- Everything HostMemWrite can do (20_memory.md R50; log 8). -/
theorem hostMemWrite_cases (a : Nat) (b : Byte) (s : State) :
    (admits s.config a = true ∧ hostMemWrite a b s = .next { s with mem := s.mem.write a b }) ∨
    (admits s.config a = false ∧ hostMemWrite a b s = .fault (.noSuchAddress a)) := by
  unfold hostMemWrite
  cases h : admits s.config a with
  | true => exact .inl ⟨rfl, rfl⟩
  | false => exact .inr ⟨rfl, rfl⟩

/-- Everything HostMemRead can do (20_memory.md R50; log 8). -/
theorem hostMemRead_cases (a : Nat) (s : State) :
    (admits s.config a = true ∧ hostMemRead a s = .next (s.reply (.byte a (s.mem.read a)))) ∨
    (admits s.config a = false ∧ hostMemRead a s = .fault (.noSuchAddress a)) := by
  unfold hostMemRead
  cases h : admits s.config a with
  | true => exact .inl ⟨rfl, rfl⟩
  | false => exact .inr ⟨rfl, rfl⟩

/-- A host action faults only where it accesses an address that does not exist (log 8). -/
theorem perform_fault {act : HostAction} {s : State} {f : Fault} (h : perform act s = .fault f) :
    ∃ a, f = .noSuchAddress a ∧ admits s.config a = false ∧ (act = .memRead a ∨ ∃ b, act = .memWrite a b) := by
  cases act with
  | issue c =>
    obtain ⟨t, e⟩ := issueWord_next c s
    exact nomatch e.symm.trans h
  | regWrite n v =>
    rcases regWrite_cases n v s with ⟨-, e⟩ | ⟨r, -, -, ⟨-, e⟩ | ⟨-, e⟩⟩ <;> exact nomatch e.symm.trans h
  | regRead n => exact nomatch h
  | reset => exact nomatch h
  | memWrite a b =>
    rcases hostMemWrite_cases a b s with ⟨-, e⟩ | ⟨ha, e⟩
    · exact nomatch e.symm.trans h
    · exact ⟨a, (Host.Outcome.fault.inj (e.symm.trans h)).symm, ha, .inr ⟨b, rfl⟩⟩
  | memRead a =>
    rcases hostMemRead_cases a s with ⟨-, e⟩ | ⟨ha, e⟩
    · exact nomatch e.symm.trans h
    · exact ⟨a, (Host.Outcome.fault.inj (e.symm.trans h)).symm, ha, .inl rfl⟩

/-- A host action is refused only where it writes a register with a value wider than the register (log 9). -/
theorem perform_refused {act : HostAction} {s : State} {q : Refusal} (h : perform act s = .refused q) :
    ∃ n v r, q = .valueWiderThanRegister n ∧ act = .regWrite n v ∧ Reg.ofNumber n = some r ∧
      2 ^ r.width s.config ≤ v.toNat := by
  cases act with
  | issue c =>
    obtain ⟨t, e⟩ := issueWord_next c s
    exact nomatch e.symm.trans h
  | regWrite n v =>
    rcases regWrite_cases n v s with ⟨-, e⟩ | ⟨r, hr, -, ⟨-, e⟩ | ⟨hv, e⟩⟩
    · exact nomatch e.symm.trans h
    · exact nomatch e.symm.trans h
    · exact ⟨n, v, r, (Host.Outcome.refused.inj (e.symm.trans h)).symm, rfl, hr, hv⟩
  | regRead n => exact nomatch h
  | reset => exact nomatch h
  | memWrite a b =>
    rcases hostMemWrite_cases a b s with ⟨-, e⟩ | ⟨-, e⟩ <;> exact nomatch e.symm.trans h
  | memRead a =>
    rcases hostMemRead_cases a s with ⟨-, e⟩ | ⟨-, e⟩ <;> exact nomatch e.symm.trans h

/-- No host action changes the configuration or the actions still to come (logs 4, 6). -/
theorem perform_config_script {act : HostAction} {s t : State} (h : perform act s = .next t) :
    t.config = s.config ∧ t.script = s.script := by
  cases act with
  | issue c =>
    obtain ⟨hc, hs, -, -⟩ := issueWord_frame h
    exact ⟨hc, hs⟩
  | regWrite n v =>
    rcases regWrite_cases n v s with ⟨-, e⟩ | ⟨r, -, -, ⟨-, e⟩ | ⟨-, e⟩⟩
    · obtain rfl := Host.Outcome.next.inj (e.symm.trans h)
      exact ⟨rfl, rfl⟩
    · obtain rfl := Host.Outcome.next.inj (e.symm.trans h)
      exact ⟨State.writeReg_config s r v, State.writeReg_script s r v⟩
    · exact nomatch e.symm.trans h
  | regRead n =>
    obtain rfl := Host.Outcome.next.inj h
    exact ⟨rfl, rfl⟩
  | reset =>
    obtain rfl := Host.Outcome.next.inj h
    exact ⟨rfl, rfl⟩
  | memWrite a b =>
    rcases hostMemWrite_cases a b s with ⟨-, e⟩ | ⟨-, e⟩
    · obtain rfl := Host.Outcome.next.inj (e.symm.trans h)
      exact ⟨rfl, rfl⟩
    · exact nomatch e.symm.trans h
  | memRead a =>
    rcases hostMemRead_cases a s with ⟨-, e⟩ | ⟨-, e⟩
    · obtain rfl := Host.Outcome.next.inj (e.symm.trans h)
      exact ⟨rfl, rfl⟩
    · exact nomatch e.symm.trans h

/-! ### Steps -/

/-- With no action left a step answers the same state (log 4). -/
theorem step_of_nextAction_none {s : State} (h : s.nextAction = none) : step s = .next s := by
  rcases step_eq s with ⟨-, e⟩ | ⟨a, ha, -⟩
  · exact e
  · exact nomatch h.symm.trans ha

/-- A step that does not answer its own state performs the next action. -/
theorem exists_nextAction_of_step {s : State} {r : Result} (h : step s = r) (hr : r ≠ .next s) :
    ∃ act, s.nextAction = some act ∧ perform act s.popAction = r := by
  rcases step_eq s with ⟨-, e⟩ | ⟨act, ha, e⟩
  · exact absurd (h.symm.trans e) hr
  · exact ⟨act, ha, e.symm.trans h⟩

/-- Settles O12: the idle case is `step_of_nextAction_none`; a fault or a refusal is the next action's. -/
theorem stepsStopOnlyOnHostMisuse : Obligations.StepsStopOnlyOnHostMisuse := by
  refine ⟨fun s => step_of_nextAction_none, fun s f h => ?_, fun s q h => ?_⟩
  · obtain ⟨act, hact, hp⟩ := exists_nextAction_of_step h nofun
    obtain ⟨a, hf, ha, hor⟩ := perform_fault hp
    refine ⟨a, hf, ha, hor.imp ?_ ?_⟩
    · rintro rfl
      exact hact
    · rintro ⟨b, rfl⟩
      exact ⟨b, hact⟩
  · obtain ⟨act, hact, hp⟩ := exists_nextAction_of_step h nofun
    obtain ⟨n, v, r, hq, rfl, hr, hv⟩ := perform_refused hp
    exact ⟨n, v, r, hq, hact, hr, hv⟩

/-- Settles O58: an idle step has no action to lose; any other keeps what its action keeps of the state without it. -/
theorem stepsKeepTheConfiguration : Obligations.StepsKeepTheConfiguration := by
  intro s t h
  rcases step_eq s with ⟨hnone, e⟩ | ⟨act, hact, e⟩
  · obtain rfl := Host.Outcome.next.inj (e.symm.trans h)
    have hscript : s.script = [] := List.head?_eq_none_iff.mp hnone
    exact ⟨rfl, by rw [hscript, List.tail_nil], fun _ _ => ⟨rfl, rfl⟩⟩
  · have hp : perform act s.popAction = .next t := e.symm.trans h
    obtain ⟨hconfig, hscript⟩ := perform_config_script hp
    refine ⟨hconfig, hscript, fun c hc => ?_⟩
    obtain rfl := Option.some.inj (hact.symm.trans hc)
    obtain ⟨-, -, hreplies, hdraws⟩ := issueWord_frame hp
    exact ⟨hreplies, hdraws⟩

end Sys2Proof.Machine
end

section
/-! PROOFS. Everything an action of the host can leave, as a relation between the state it runs in and the next state; and
from it the statements of 10_state.md: the context and KVALID, the invariants, the frames and read sets of the commands. -/

namespace Sys2Proof.Machine

/-! ### What an action leaves -/

/-- What must hold for a command to be rejected with a cause, the checks before it in the order of 60_exceptions.md R223
having passed; an illegal word is rejected in any state. -/
def State.Rejects (s : State) : Cause → Prop
  | .illcmd => True
  | .nokey  => s.status.kvalid = false
  | .len    => s.status.kvalid = true ∧ ¬ LengthFits s
  | .addr   => s.status.kvalid = true ∧ LengthFits s ∧ ¬ BuffersFit s

/-- The next states of a host action: the effect of each of its ends. -/
inductive HostEffect (s : State) : HostAction → State → Prop
  /-- INIT's word (41_key_schedule.md R126). -/
  | init : HostEffect s (.issue 0x02#8)
      { s with regs := { s.regs with k := keySchedule s.regs.key }, status := s.status.completedInit }
  /-- Any other word, rejected (60_exceptions.md R224). -/
  | rejected {c : CommandWord} {q : Cause} (hc : c ≠ 0x02#8) (hq : s.Rejects q) : HostEffect s (.issue c) (s.reject q)
  /-- A block command that completes (43_block_core.md R165, R166). -/
  | block {c : CommandWord} (dir : Dir) (hc : c ≠ 0x02#8) (hk : s.status.kvalid = true) : HostEffect s (.issue c)
      { s with regs := { s.regs with dout := crypt dir s.regs.k s.regs.din }, status := s.status.completed }
  /-- A buffer command that completes (44_chaining_modes.md R180). -/
  | buffer {c : CommandWord} (f : BlockFn) (hc : c ≠ 0x02#8) (hs : BufferAccepted s) : HostEffect s (.issue c)
      { s with mem := (runAfter f s s.numBlocks).mem, status := s.status.completed }
  /-- RegWrite to a read-only or unassigned number (30_encoding.md R78). -/
  | writeIgnored {n : BitVec 5} {v : BitVec 64} (hn : ∀ r, Reg.ofNumber n = some r → r.writable = false) :
      HostEffect s (.regWrite n v) s
  /-- RegWrite of a value that fits (30_encoding.md R75). -/
  | written {n : BitVec 5} {v : BitVec 64} {r : Reg} (hn : Reg.ofNumber n = some r) (hw : r.writable = true)
      (hv : v.toNat < 2 ^ r.width s.config) : HostEffect s (.regWrite n v) (s.writeReg r v)
  /-- RegRead (30_encoding.md R75). -/
  | regRead {n : BitVec 5} : HostEffect s (.regRead n) (s.reply (.reg n (regReadValue n s)))
  /-- Reset (70_reset_and_hazards.md R250). -/
  | reset : HostEffect s .reset { s.resetWith (s.regs.unspecified s.config s.draws) with draws := s.draws + 1 }
  /-- HostMemWrite to an address that exists (20_memory.md R50). -/
  | memWrite {a : Nat} {b : Byte} (ha : admits s.config a = true) :
      HostEffect s (.memWrite a b) { s with mem := s.mem.write a b }
  /-- HostMemRead of an address that exists (20_memory.md R50). -/
  | memRead {a : Nat} (ha : admits s.config a = true) : HostEffect s (.memRead a) (s.reply (.byte a (s.mem.read a)))

/-- Only the word 0x02 is INIT (30_encoding.md R72). -/
theorem decode_eq_init_iff (c : CommandWord) : decode c = .ok .init ↔ c = 0x02#8 := by
  revert c; decide +kernel

theorem ne_init_of_mem_bufferInstrs {i : Instr} (h : i ∈ bufferInstrs) : i ≠ .init := by
  rintro rfl; simp [bufferInstrs] at h

theorem hostEffect_of_exec {c : CommandWord} {i : Instr} {s t : State} (hd : decode c = .ok i) (h : exec i s = .next t) :
    HostEffect s (.issue c) t := by
  have hc : i ≠ .init → c ≠ 0x02#8 := fun hi hc =>
    hi (Except.ok.inj (hd.symm.trans ((decode_eq_init_iff c).mpr hc)))
  rcases exec_cases i s with ⟨rfl, e⟩ | ⟨hi, hk, e⟩ | ⟨hk, dir, e, hi⟩ | ⟨hb, hk, hl, e⟩ | ⟨hb, hk, hl, hr, e⟩ | ⟨hb, hs, f, e⟩ <;>
    obtain rfl := Host.Outcome.next.inj (e.symm.trans h)
  · obtain rfl := (decode_eq_init_iff c).mp hd
    exact .init
  · exact .rejected (hc hi) hk
  · exact .block dir (hc (by rcases hi with ⟨rfl, -⟩ | ⟨rfl, -⟩ <;> nofun)) hk
  · exact .rejected (hc (ne_init_of_mem_bufferInstrs hb)) ⟨hk, hl⟩
  · exact .rejected (hc (ne_init_of_mem_bufferInstrs hb)) ⟨hk, hl, hr⟩
  · exact .buffer f (hc (ne_init_of_mem_bufferInstrs hb)) hs

/-- Every next state of a host action is one of those listed. -/
theorem hostEffect_of_perform {act : HostAction} {s t : State} (h : perform act s = .next t) : HostEffect s act t := by
  cases act with
  | issue c =>
    rcases issueWord_cases c s with ⟨i, hd, e⟩ | ⟨_, hd, e⟩
    · exact hostEffect_of_exec hd (e.symm.trans h)
    · obtain rfl := Host.Outcome.next.inj (e.symm.trans h)
      exact .rejected (fun hc => nomatch hd.symm.trans ((decode_eq_init_iff c).mpr hc)) trivial
  | regWrite n v =>
    rcases regWrite_cases n v s with ⟨hn, e⟩ | ⟨r, hn, hw, ⟨hv, e⟩ | ⟨-, e⟩⟩
    · obtain rfl := Host.Outcome.next.inj (e.symm.trans h)
      exact .writeIgnored hn
    · obtain rfl := Host.Outcome.next.inj (e.symm.trans h)
      exact .written hn hw hv
    · exact nomatch e.symm.trans h
  | regRead n =>
    obtain rfl := Host.Outcome.next.inj h
    exact .regRead
  | reset =>
    obtain rfl := Host.Outcome.next.inj h
    exact .reset
  | memWrite a b =>
    rcases hostMemWrite_cases a b s with ⟨ha, e⟩ | ⟨-, e⟩
    · obtain rfl := Host.Outcome.next.inj (e.symm.trans h)
      exact .memWrite ha
    · exact nomatch e.symm.trans h
  | memRead a =>
    rcases hostMemRead_cases a s with ⟨ha, e⟩ | ⟨-, e⟩
    · obtain rfl := Host.Outcome.next.inj (e.symm.trans h)
      exact .memRead ha
    · exact nomatch e.symm.trans h

/-- A step is idle, or has the effect of the next action on the state without it. -/
theorem step_effect {s t : State} (h : step s = .next t) :
    (s.nextAction = none ∧ t = s) ∨ ∃ act, s.nextAction = some act ∧ HostEffect s.popAction act t := by
  rcases step_eq s with ⟨hn, e⟩ | ⟨act, hact, e⟩
  · exact .inl ⟨hn, (Host.Outcome.next.inj (e.symm.trans h)).symm⟩
  · exact .inr ⟨act, hact, hostEffect_of_perform (e.symm.trans h)⟩

/-! ### KVALID and the context -/

/-- Reset clears KVALID, INIT sets it, no other action changes it (10_state.md R26). -/
theorem HostEffect.kvalid {s t : State} {act : HostAction} (h : HostEffect s act t) : t.status.kvalid =
    if act = .reset then false else if act = .issue 0x02#8 then true else s.status.kvalid := by
  cases h with
  | rejected hc _ | block _ hc _ | buffer _ hc _ => simp [hc]
  | _ => simp

/-- INIT makes the context the key schedule of KEY, and of the other actions only Reset changes it (10_state.md R34). -/
theorem HostEffect.context {s t : State} {act : HostAction} (h : HostEffect s act t) (hact : act ≠ .reset) :
    t.regs.k = if act = .issue 0x02#8 then keySchedule s.regs.key else s.regs.k := by
  cases h with
  | rejected hc _ | block _ hc _ | buffer _ hc _ => simp [hc]
  | reset => exact absurd rfl hact
  | _ => simp

/-- Without a context every command but INIT is rejected NOKEY (60_exceptions.md R221). -/
theorem exec_of_no_context {i : Instr} {s : State} (hi : i ≠ .init) (hk : s.status.kvalid = false) :
    exec i s = .next (s.reject .nokey) := by
  have hk' : ¬ s.status.kvalid = true := Bool.eq_false_iff.mp hk
  rcases exec_cases i s with ⟨h, -⟩ | ⟨-, -, e⟩ | ⟨h, -⟩ | ⟨-, h, -⟩ | ⟨-, h, -⟩ | ⟨-, ⟨h, -⟩, -⟩
  · exact absurd h hi
  · exact e
  all_goals exact absurd h hk'

/-- Settles O17: `HostEffect.kvalid` of the next action, and `exec_of_no_context`. -/
theorem kvalidIsSetByInitOnly : Obligations.KvalidIsSetByInitOnly := by
  refine ⟨fun s t h => ?_, fun i s => exec_of_no_context⟩
  rcases step_effect h with ⟨hn, rfl⟩ | ⟨act, hact, he⟩
  · simp [hn]
  · simp [hact, he.kvalid, State.popAction_status]

/-- Settles O37: `HostEffect.context` of the next action. -/
theorem contextIsImmutable : Obligations.ContextIsImmutable := by
  intro s t h
  rcases step_effect h with ⟨hn, rfl⟩ | ⟨act, hact, he⟩
  · exact ⟨fun _ _ => rfl, fun hinit => nomatch hn.symm.trans hinit⟩
  · rw [hact]
    refine ⟨fun hinit hreset => ?_, ?_⟩
    · rw [he.context (mt (congrArg some) hreset), if_neg (mt (congrArg some) hinit), State.popAction_regs]
    · intro hinit
      obtain rfl := Option.some.inj hinit
      rw [he.context nofun, if_pos rfl, State.popAction_regs]

/-- Settles O57: after a Reset KVALID is 0, after INIT the context is that of KEY, and any other step leaves both KVALID
and the context. -/
theorem stepKeepsTheContextDerived : Obligations.StepKeepsTheContextDerived := by
  intro s t hs h hk
  obtain ⟨hother, hinit⟩ := contextIsImmutable s t h
  rw [kvalidIsSetByInitOnly.1 s t h] at hk
  split_ifs at hk with hr hi
  · exact ⟨_, hinit hi⟩
  · rw [hother hi hr]
    exact hs hk

/-! ### The invariant -/

/-- No two causes have one code (60_exceptions.md R221). -/
theorem Cause.code_injective : Function.Injective Cause.code
  | .illcmd, .illcmd, _ | .nokey, .nokey, _ | .len, .len, _ | .addr, .addr, _ => rfl

theorem lasterr_rejected_toNat (st : Status) (c : Cause) : (st.rejected c).lasterr.toNat = c.code := by
  rw [Status.lasterr_rejected]; cases c <;> rfl

/-- A sticky flag that is set after a rejection was set before, or is that of the cause. -/
theorem sticky_of_sticky_rejected {st : Status} {c q : Cause} (h : (st.rejected q).sticky c = true) :
    st.sticky c = true ∨ c = q := by
  rwa [Status.sticky_rejected, Bool.or_eq_true, beq_iff_eq] at h

theorem Cause.code_ne_zero (c : Cause) : c.code ≠ 0 := by
  cases c <;> decide

/-- The STATUS of reset is one a run can show (10_state.md R38). -/
theorem statusLegal_zero (p : LenPolicy) : StatusLegal p 0x00#8 where
  lasterr_le := by decide
  lasterr_sticky c h := absurd h.symm c.code_ne_zero
  nokey_no_key _ := rfl
  len_has_key h := nomatch h
  addr_has_key h := nomatch h
  fresh _ _ := rfl
  truncate_no_len _ := rfl

/-- A completion leaves STATUS legal: there is a context, LASTERR is 0, the sticky flags stay (60_exceptions.md R225). -/
theorem StatusLegal.of_completion {p : LenPolicy} {st st' : Status} (h : StatusLegal p st) (hk : st'.kvalid = true)
    (hl : st'.lasterr = 0#3) (hs : ∀ c, st'.sticky c = st.sticky c) : StatusLegal p st' where
  lasterr_le := by simp [hl]
  lasterr_sticky c hc := absurd (hc.symm.trans (by rw [hl]; rfl)) c.code_ne_zero
  nokey_no_key hc := absurd (hc.symm.trans (by rw [hl]; rfl)) (Cause.code_ne_zero .nokey)
  len_has_key _ := hk
  addr_has_key _ := hk
  fresh hk' := nomatch hk.symm.trans hk'
  truncate_no_len hp := (hs .len).trans (h.truncate_no_len hp)

/-- A rejection leaves STATUS legal, whichever cause can be reported (60_exceptions.md R223, R224). -/
theorem StatusLegal.rejected {s : State} (h : StatusLegal s.config.lenPolicy s.status) {q : Cause} (hq : s.Rejects q) :
    StatusLegal s.config.lenPolicy (s.status.rejected q) where
  lasterr_le := by rw [lasterr_rejected_toNat]; cases q <;> decide
  lasterr_sticky c hc := by
    rw [lasterr_rejected_toNat] at hc
    rw [← Cause.code_injective hc, Status.sticky_rejected_self]
  nokey_no_key hc := by
    rw [lasterr_rejected_toNat] at hc
    obtain rfl := Cause.code_injective hc
    rw [Status.kvalid_rejected]
    exact hq
  len_has_key hl := by
    rw [Status.kvalid_rejected]
    rcases sticky_of_sticky_rejected hl with hl | rfl
    · exact h.len_has_key hl
    · exact hq.1
  addr_has_key ha := by
    rw [Status.kvalid_rejected]
    rcases sticky_of_sticky_rejected ha with ha | rfl
    · exact h.addr_has_key ha
    · exact hq.1
  fresh _ h0 := absurd ((lasterr_rejected_toNat _ q).symm.trans h0) q.code_ne_zero
  truncate_no_len hp := by
    have hne : Cause.len ≠ q := by
      rintro rfl
      exact hq.2 (.inr hp)
    rw [Status.sticky_rejected, h.truncate_no_len hp, Bool.false_or, beq_eq_false_iff_ne]
    exact hne

/-- A value that fits the register it is written to keeps SRC, DST and LEN within AW bits (10_state.md R27). -/
theorem AddrRegsFit.writeReg {s : State} (h : AddrRegsFit s) {r : Reg} {v : BitVec 64}
    (hv : v.toNat < 2 ^ r.width s.config) : AddrRegsFit (s.writeReg r v) := by
  obtain ⟨hsrc, hdst, hlen⟩ := h
  cases r with
  | src => exact ⟨hv, hdst, hlen⟩
  | dst => exact ⟨hsrc, hv, hlen⟩
  | len => exact ⟨hsrc, hdst, hv⟩
  | _ => exact ⟨hsrc, hdst, hlen⟩

theorem toAddrWidth_lt (c : Config) (v : BitVec 64) : (toAddrWidth c v).toNat < 2 ^ c.aw := by
  rw [toAddrWidth, BitVec.toNat_ofNat]
  exact (Nat.mod_le _ _).trans_lt (Nat.mod_lt _ (Nat.two_pow_pos _))

/-- The free values that Reset draws for SRC, DST and LEN are AW-bit values (10_state.md R38). -/
theorem addrRegsFit_unspecified (s : State) (draw : Nat) :
    AddrRegsFit (s.resetWith (s.regs.unspecified s.config draw)) :=
  ⟨toAddrWidth_lt _ _, toAddrWidth_lt _ _, toAddrWidth_lt _ _⟩

/-- The blocks an accepted buffer command stores lie at addresses that exist (20_memory.md R56). -/
theorem BufferAccepted.admits_output {s : State} (h : BufferAccepted s) {a : Nat} (ha : InOutput s a) :
    admits s.config a = true := by
  obtain ⟨-, -, -, hdst⟩ := h
  obtain ⟨j, hj, h1, h2⟩ := ha
  simp only [State.dstBlock] at h1 h2
  rcases hdst with hn | ⟨-, hall⟩
  · omega
  · exact hall a (by omega) (by omega)

theorem State.Inv.resetWith {s : State} (h : s.Inv) {r : Regs} (hr : AddrRegsFit (s.resetWith r)) : (s.resetWith r).Inv where
  mem_wf := h.mem_wf
  mem_admitted := h.mem_admitted
  addr_fit := hr
  status_legal := statusLegal_zero _

/-- Every host action keeps the invariant. -/
theorem HostEffect.inv {s t : State} {act : HostAction} (h : HostEffect s act t) (hs : s.Inv) : t.Inv := by
  obtain ⟨hwf, hadm, hfit, hst⟩ := hs
  cases h with
  | init =>
    exact ⟨hwf, hadm, hfit, hst.of_completion (Status.kvalid_completedInit _) (Status.lasterr_completedInit _)
      (Status.sticky_completedInit _)⟩
  | rejected _ hq => exact ⟨hwf, hadm, hfit, hst.rejected hq⟩
  | block _ _ hk =>
    exact ⟨hwf, hadm, hfit, hst.of_completion ((Status.kvalid_completed _).trans hk) (Status.lasterr_completed _)
      (Status.sticky_completed _)⟩
  | buffer f _ hacc =>
    refine ⟨runAfter_wf f s _ hwf, fun x hx => ?_, hfit, hst.of_completion ((Status.kvalid_completed _).trans hacc.1)
      (Status.lasterr_completed _) (Status.sticky_completed _)⟩
    exact (runAfter_mem f s _ hx).elim (hadm x) hacc.admits_output
  | writeIgnored | regRead | memRead _ => exact ⟨hwf, hadm, hfit, hst⟩
  | written _ _ hv => exact ⟨by simpa using hwf, by simpa using hadm, hfit.writeReg hv, by simpa using hst⟩
  | reset =>
    obtain ⟨hwf', hadm', hfit', hst'⟩ :=
      State.Inv.resetWith ⟨hwf, hadm, hfit, hst⟩ (addrRegsFit_unspecified s s.draws)
    exact ⟨hwf', hadm', hfit', hst'⟩
  | memWrite ha =>
    refine ⟨Memory.write_wf hwf _ _, fun x hx => ?_, hfit, hst⟩
    rcases Memory.mem_write hx with rfl | hx
    · exact ha
    · exact hadm x hx

/-- Settles O56: taking the action from the script touches nothing the invariant speaks of, and the action keeps it by
`HostEffect.inv`. -/
theorem stepKeepsTheInvariant : Obligations.StepKeepsTheInvariant := by
  intro s t hs h
  rcases step_effect h with ⟨-, rfl⟩ | ⟨act, -, he⟩
  · exact hs
  · exact he.inv ⟨hs.mem_wf, hs.mem_admitted, hs.addr_fit, hs.status_legal⟩

/-- Settles O55: the reset state has no byte in memory and registers that fit; a Reset is `State.Inv.resetWith`. -/
theorem resetMeetsTheInvariant : Obligations.ResetMeetsTheInvariant := by
  refine ⟨⟨⟨.nil, nofun⟩, nofun, ?_, statusLegal_zero _⟩, nofun, fun s r hs hr => hs.resetWith hr⟩
  have hz : (0#64).toNat < 2 ^ Config.default.aw := Nat.two_pow_pos _
  exact ⟨hz, hz, hz⟩

/-! ### Frames of the commands -/

/-- Settles O10: STATUS is 0x00 there, so KVALID is 0 and the rejection NOKEY gives 0x24, the completion of INIT 0x01. -/
theorem afterResetOnlyInitCompletes : Obligations.AfterResetOnlyInitCompletes := by
  intro s r
  have hnokey : Status.rejected 0x00#8 .nokey = 0x24#8 := by decide
  have hinit : Status.completedInit 0x00#8 = 0x01#8 := by decide
  refine ⟨fun i hi => ?_, _, rfl, hinit⟩
  rw [exec_of_no_context hi Status.kvalid_zero, State.reject, State.resetWith_status, hnokey]

/-- A command that works on registers and is not INIT is a block command (43_block_core.md R165, R166). -/
theorem exec_eq_blockCommand {i : Instr} (hi : i ∈ [Instr.init, .encb, .decb]) (hne : i ≠ .init) (s : State) :
    ∃ dir, exec i s = blockCommand dir s := by
  simp only [List.mem_cons, hne, List.not_mem_nil, false_or, or_false] at hi
  rcases hi with rfl | rfl
  · exact ⟨.enc, rfl⟩
  · exact ⟨.dec, rfl⟩

/-- Settles O36: INIT by its definition, the block commands by `blockCommand_cases`; LASTERR tells a rejection from the
completion of the last clause. -/
theorem registerCommandFrame : Obligations.RegisterCommandFrame := by
  intro i hi s t h
  by_cases hinit : i = .init
  · subst hinit
    obtain rfl := Host.Outcome.next.inj h
    exact ⟨fun _ => rfl, rfl, rfl, rfl, rfl, rfl, rfl, rfl, rfl, rfl, rfl, rfl, fun _ => rfl, fun hne => absurd rfl hne,
      fun _ => Status.sticky_completedInit _⟩
  · obtain ⟨dir, hdir⟩ := exec_eq_blockCommand hi hinit s
    rcases blockCommand_cases dir s with ⟨-, e⟩ | ⟨-, e⟩ <;>
      obtain rfl := Host.Outcome.next.inj ((hdir.trans e).symm.trans h)
    · exact ⟨fun _ => rfl, rfl, rfl, rfl, rfl, rfl, rfl, rfl, rfl, rfl, rfl, rfl, fun _ => rfl,
        fun _ => ⟨rfl, Status.kvalid_rejected _ _⟩, fun h0 => absurd h0 (Status.lasterr_rejected_ne_zero _ _)⟩
    · exact ⟨fun _ => rfl, rfl, rfl, rfl, rfl, rfl, rfl, rfl, rfl, rfl, rfl, rfl, fun h0 => absurd h0 hinit,
        fun _ => ⟨rfl, Status.kvalid_completed _⟩, fun _ => Status.sticky_completed _⟩

/-- Everything a buffer command can leave (44_chaining_modes.md R181): `bufferCommand_cases`, its rejections as one. -/
theorem bufferCommand_next {f : BlockFn} {s t : State} (h : bufferCommand f s = .next t) :
    (∃ c, t = s.reject c) ∨ t = { s with mem := (runAfter f s s.numBlocks).mem, status := s.status.completed } := by
  rcases bufferCommand_cases f s with ⟨-, e⟩ | ⟨-, -, e⟩ | ⟨-, -, -, e⟩ | ⟨-, e⟩ <;>
    obtain rfl := Host.Outcome.next.inj (e.symm.trans h)
  · exact .inl ⟨.nokey, rfl⟩
  · exact .inl ⟨.len, rfl⟩
  · exact .inl ⟨.addr, rfl⟩
  · exact .inr rfl

/-- Settles O44: a rejection changes STATUS alone, a completion also the blocks stored, by `runAfter_read_outside`. -/
theorem bufferCommandFrame : Obligations.BufferCommandFrame := by
  intro i hi s t h
  obtain ⟨f, hf, -⟩ := exec_buffer hi s
  rcases bufferCommand_next (hf.symm.trans h) with ⟨c, rfl⟩ | rfl
  · exact ⟨rfl, rfl, rfl, rfl, rfl, Status.kvalid_rejected _ c, .inr ⟨c, rfl⟩, fun _ _ => rfl⟩
  · refine ⟨rfl, rfl, rfl, rfl, rfl, Status.kvalid_completed _,
      .inl ⟨Status.lasterr_completed _, Status.sticky_completed _⟩, fun a ha => ?_⟩
    exact runAfter_read_outside f s _ a fun j hj hc => ha ⟨j, hj, hc⟩

/-! ### The read set of the buffer commands -/

/-- s and s' agree on the operands of a buffer command that both ECB and CBC read (10_state.md R35). -/
structure SameOperands (s s' : State) : Prop where
  src   : s.regs.src = s'.regs.src
  dst   : s.regs.dst = s'.regs.dst
  len   : s.regs.len = s'.regs.len
  input : ∀ a, InInput s a → s.mem.read a = s'.mem.read a

theorem SameOperands.numBlocks {s s' : State} (h : SameOperands s s') : s.numBlocks = s'.numBlocks := by
  rw [State.numBlocks, State.numBlocks, h.len]

theorem SameOperands.srcBlock {s s' : State} (h : SameOperands s s') (j : Nat) : s.srcBlock j = s'.srcBlock j := by
  rw [State.srcBlock, State.srcBlock, h.src]

theorem SameOperands.dstBlock {s s' : State} (h : SameOperands s s') (j : Nat) : s.dstBlock j = s'.dstBlock j := by
  rw [State.dstBlock, State.dstBlock, h.dst]

/-- The block function writes the same block from two equal CHAINs, or whatever CHAIN holds. -/
def ChainAgrees (f : BlockFn) (v v' : Block) : Prop :=
  v = v' ∨ ∀ c c' x, (f c x).1 = (f c' x).1

/-- Two runs after n blocks: CHAIN agrees where IV did, and the memories agree on the input buffer and on the blocks stored
so far, which later blocks may read where the buffers overlap (20_memory.md R60). -/
structure RunsAgree (f : BlockFn) (s s' : State) (n : Nat) : Prop where
  chain : s.regs.iv = s'.regs.iv → (runAfter f s n).chain = (runAfter f s' n).chain
  mem   : ∀ a, (InInput s a ∨ ∃ j, j < n ∧ s.dstBlock j ≤ a ∧ a < s.dstBlock j + 8) →
    (runAfter f s n).mem.read a = (runAfter f s' n).mem.read a

/-- One more block keeps the agreement: it is read in the input buffer, and its bytes are the only ones stored. -/
theorem RunsAgree.succ {f : BlockFn} {s s' : State} {n : Nat} (h : RunsAgree f s s' n) (hop : SameOperands s s')
    (hf : ChainAgrees f s.regs.iv s'.regs.iv) (hn : n < s.numBlocks) : RunsAgree f s s' (n + 1) := by
  have hread : (runAfter f s n).mem.readBlock (s.srcBlock n) = (runAfter f s' n).mem.readBlock (s'.srcBlock n) := by
    rw [← hop.srcBlock]
    exact Memory.readBlock_congr fun t ht => h.mem _ (.inl ⟨n, hn, by omega, by omega⟩)
  have hout : (f (runAfter f s n).chain ((runAfter f s n).mem.readBlock (s.srcBlock n))).1 =
      (f (runAfter f s' n).chain ((runAfter f s' n).mem.readBlock (s'.srcBlock n))).1 := by
    rw [hread]
    rcases hf with hiv | hany
    · rw [h.chain hiv]
    · exact hany _ _ _
  refine ⟨fun hiv => ?_, fun a ha => ?_⟩
  · simp only [runAfter, BufferRun.step, hread, h.chain hiv]
  · simp only [runAfter, BufferRun.step, Memory.read_writeBlock, hout, hop.dstBlock n]
    split
    · rfl
    · next hstored =>
      refine h.mem a (ha.imp_right fun ⟨j, hj, hja⟩ => ⟨j, ?_, hja⟩)
      have : j ≠ n := by
        rintro rfl
        exact hstored (hop.dstBlock j ▸ hja)
      omega

/-- As long as blocks are left the two runs agree, by induction on the blocks done. -/
theorem runsAgree {f : BlockFn} {s s' : State} (hop : SameOperands s s') (hf : ChainAgrees f s.regs.iv s'.regs.iv)
    {n : Nat} (hn : n ≤ s.numBlocks) : RunsAgree f s s' n := by
  induction n with
  | zero => exact ⟨id, fun a ha => hop.input a (ha.resolve_right fun ⟨_, hj, _⟩ => Nat.not_lt_zero _ hj)⟩
  | succ n ih => exact (ih (by omega)).succ hop hf (by omega)

/-- A buffer command runs one block function in two states of the same context; CBC's depends on CHAIN, ECB's does not. -/
theorem exec_buffer_pair {i : Instr} (hi : i ∈ bufferInstrs) {s s' : State} (hk : s.regs.k = s'.regs.k)
    (hiv : i = .cbce ∨ i = .cbcd → s.regs.iv = s'.regs.iv) : ∃ f : BlockFn,
    exec i s = bufferCommand f s ∧ exec i s' = bufferCommand f s' ∧ ChainAgrees f s.regs.iv s'.regs.iv := by
  obtain ⟨f, hf, ⟨rfl, rfl⟩ | ⟨rfl, rfl⟩ | ⟨rfl, rfl⟩ | ⟨rfl, rfl⟩⟩ := exec_buffer hi s
  · exact ⟨_, hf, by rw [hk]; rfl, .inr fun _ _ _ => rfl⟩
  · exact ⟨_, hf, by rw [hk]; rfl, .inr fun _ _ _ => rfl⟩
  · exact ⟨_, hf, by rw [hk]; rfl, .inl (hiv (.inl rfl))⟩
  · exact ⟨_, hf, by rw [hk]; rfl, .inl (hiv (.inr rfl))⟩

/-- The checks of a buffer command depend on STATUS, the configuration, SRC, DST and LEN only (44_chaining_modes.md R181). -/
theorem BufferAccepted.congr {s s' : State} (h : BufferAccepted s) (hst : s.status = s'.status)
    (hc : s.config = s'.config) (hop : SameOperands s s') : BufferAccepted s' := by
  simpa only [BufferAccepted, LengthFits, BuffersFit, State.numBlocks, hst, hc, hop.src, hop.dst, hop.len] using h

/-- An accepted buffer command completes with the memory its block loop leaves (44_chaining_modes.md R180). -/
theorem bufferCommand_of_accepted {s : State} (h : BufferAccepted s) (f : BlockFn) : bufferCommand f s =
    .next { s with mem := (runAfter f s s.numBlocks).mem, status := s.status.completed } := by
  obtain ⟨-, -, -, hnone⟩ := bufferCheck_spec s
  rw [bufferCommand, hnone h]
  rfl

/-- Settles O49: both states are accepted and run one block function, whose runs agree block by block. -/
theorem bufferCommandsReadOnlyTheirOperands : Obligations.BufferCommandsReadOnlyTheirOperands := by
  intro i hi s s' hacc hst hc hk hsrc hdst hlen hiv hin
  have hop : SameOperands s s' := ⟨hsrc, hdst, hlen, hin⟩
  obtain ⟨f, hf, hf', hchain⟩ := exec_buffer_pair hi hk hiv
  refine ⟨_, _, hf.trans (bufferCommand_of_accepted hacc f),
    hf'.trans (bufferCommand_of_accepted (hacc.congr hst hc hop) f), congrArg Status.completed hst, fun a ha => ?_⟩
  simp only [← hop.numBlocks]
  exact (runsAgree hop hchain le_rfl).mem a (.inr ha)

end Sys2Proof.Machine
end

section
/-! PROOFS. The host's memory accesses, the bytes of a block in memory, and the range check: the statements of
20_memory.md. -/

namespace Sys2Proof.Machine

/-! ### Blocks in memory -/

/-- Be64 inverts Bytes8: its byte t is the t-th of the eight (20_memory.md R52). -/
theorem byteOf_be64 (b0 b1 b2 b3 b4 b5 b6 b7 : Byte) {t : Nat} (ht : t < 8) :
    byteOf (be64 b0 b1 b2 b3 b4 b5 b6 b7) t = [b0, b1, b2, b3, b4, b5, b6, b7].getD t 0 := by
  apply BitVec.eq_of_getLsbD_eq
  intro i hi
  have hdiv : (56 - 8 * t + i) / 8 = 7 - t := by omega
  have hmod : (56 - 8 * t + i) % 8 = i := by omega
  rw [getLsbD_byteOf _ _ _ hi, getLsbD_be64 _ _ _ _ _ _ _ _ _ (by omega), hdiv, hmod]
  interval_cases t <;> rfl

/-- Settles O38: byte t of the block read is the t-th byte read by `byteOf_be64`; the block of its own bytes is
`be64_byteOf`. -/
theorem blockReadIsBigEndian : Obligations.BlockReadIsBigEndian := by
  refine ⟨fun m a t ht => ?_, be64_byteOf, by decide⟩
  rw [Memory.readBlock, byteOf_be64 _ _ _ _ _ _ _ _ ht]
  interval_cases t <;> rfl

/-- Settles O39: an address is read by `Memory.read_writeBlock`, as one of the eight or as one outside them. -/
theorem blockWriteStoresEightBytes : Obligations.BlockWriteStoresEightBytes := by
  refine fun m a v => ⟨fun t ht => ?_, fun x hx => ?_, m.readBlock_writeBlock_self a v,
    fun hm => Memory.writeBlock_wf hm a v⟩
  · rw [Memory.read_writeBlock, if_pos (by omega), Nat.add_sub_cancel_left]
  · rw [Memory.read_writeBlock, if_neg (by omega)]

/-! ### The host's accesses -/

/-- HostMemWrite to an address that exists stores the byte (20_memory.md R50). -/
theorem hostMemWrite_of_admits {a : Nat} {s : State} (h : admits s.config a = true) (b : Byte) :
    hostMemWrite a b s = .next { s with mem := s.mem.write a b } :=
  if_pos h

/-- HostMemRead of an address that exists replies with the byte (20_memory.md R50). -/
theorem hostMemRead_of_admits {a : Nat} {s : State} (h : admits s.config a = true) :
    hostMemRead a s = .next (s.reply (.byte a (s.mem.read a))) :=
  if_pos h

/-- Either access faults at an address that does not exist (log 8). -/
theorem host_access_of_not_admits {a : Nat} {s : State} (h : admits s.config a = false) :
    hostMemRead a s = .fault (.noSuchAddress a) ∧ ∀ b, hostMemWrite a b s = .fault (.noSuchAddress a) :=
  have h' : ¬ admits s.config a = true := Bool.eq_false_iff.mp h
  ⟨if_neg h', fun _ => if_neg h'⟩

/-- Settles O11: the step performs the access on the state without it, whose configuration and memory are the same; the
bytes after a write are those of `Memory.read_write`. -/
theorem hostMemoryAccess : Obligations.HostMemoryAccess := by
  refine ⟨fun s a b hact ha => ?_, fun s a hact ha => ?_, fun s a ha hact => ?_⟩
  · refine ⟨_, (step_of_nextAction hact).trans (hostMemWrite_of_admits (s := s.popAction) ha b), rfl, ?_, fun x hx => ?_⟩
    · rw [Memory.read_write, if_pos rfl]
    · rw [Memory.read_write, if_neg hx, State.popAction_mem]
  · exact (step_of_nextAction hact).trans (hostMemRead_of_admits (s := s.popAction) ha)
  · obtain ⟨hread, hwrite⟩ := host_access_of_not_admits (s := s.popAction) ha
    rcases hact with hact | ⟨b, hact⟩
    · exact (step_of_nextAction hact).trans hread
    · exact (step_of_nextAction hact).trans (hwrite b)

/-! ### The range check -/

/-- The range check of both buffers as 20_memory.md R56 states it, for the bytes of all NB blocks at once. -/
theorem buffersFit_iff_of_numBlocks (s : State) : BuffersFit s ↔
    8 * s.numBlocks = 0 ∨ (s.regs.src.toNat + 8 * s.numBlocks ≤ 2 ^ s.config.aw ∧
      s.regs.dst.toNat + 8 * s.numBlocks ≤ 2 ^ s.config.aw ∧
      ∀ a, (s.regs.src.toNat ≤ a ∧ a < s.regs.src.toNat + 8 * s.numBlocks) ∨
        (s.regs.dst.toNat ≤ a ∧ a < s.regs.dst.toNat + 8 * s.numBlocks) → admits s.config a = true) := by
  rw [BuffersFit, RangeFits, RangeFits, ← or_and_left]
  refine or_congr_right ⟨?_, ?_⟩
  · rintro ⟨⟨hsrc, hsrcAll⟩, hdst, hdstAll⟩
    exact ⟨hsrc, hdst, fun a ha => ha.elim (fun h => hsrcAll a h.1 h.2) fun h => hdstAll a h.1 h.2⟩
  · rintro ⟨hsrc, hdst, hall⟩
    exact ⟨⟨hsrc, fun a h1 h2 => hall a (.inl ⟨h1, h2⟩)⟩, hdst, fun a h1 h2 => hall a (.inr ⟨h1, h2⟩)⟩

/-- A buffer command that passes every check but the last is rejected ADDR (44_chaining_modes.md R181). -/
theorem bufferCommand_of_not_buffersFit {s : State} (hk : s.status.kvalid = true) (hl : LengthFits s)
    (hb : ¬ BuffersFit s) (f : BlockFn) : bufferCommand f s = .next (s.reject .addr) := by
  obtain ⟨-, -, haddr, -⟩ := bufferCheck_spec s
  rw [bufferCommand, haddr hk hl hb]

/-- Settles O45: the condition is `BuffersFit`, by `buffersFit_iff_of_numBlocks`; where it holds the command is accepted. -/
theorem rangeCheckRejectsAddr : Obligations.RangeCheckRejectsAddr := by
  intro i hi s hk hl
  obtain ⟨f, hf, -⟩ := exec_buffer hi s
  refine ⟨fun hfit => ?_, fun hfit => ?_⟩
  · have hacc : BufferAccepted s := ⟨hk, hl, (buffersFit_iff_of_numBlocks s).mpr hfit⟩
    exact ⟨_, hf.trans (bufferCommand_of_accepted hacc f), Status.lasterr_completed _⟩
  · exact hf.trans (bufferCommand_of_not_buffersFit hk hl (mt (buffersFit_iff_of_numBlocks s).mp hfit) f)

end Sys2Proof.Machine
end

section
/-! PROOFS. The encoding (30_encoding.md): the decoder and the encoder as each other's inverse, the register numbers, what
a register reads after a write; and from these the statements of 30_encoding.md. -/

namespace Sys2Proof

/-! ### The fields of a command word (R71 to R73) -/

theorem CmdFields.toWord_ofWord (c : CommandWord) : (CmdFields.ofWord c).toWord = c := by
  revert c; decide +kernel

theorem OpClass.ofBits_eq_some_iff (b : BitVec 3) (op : OpClass) : OpClass.ofBits b = some op ↔ b = op.bits := by
  revert b; cases op <;> decide

theorem Dir.ofBit_eq_iff (b : BitVec 1) (d : Dir) : Dir.ofBit b = d ↔ b = d.bit := by
  revert b; cases d <;> decide

/-- The OP values 1 to 4 are the assigned ones (R71). -/
theorem OpClass.exists_eq_bits {b : BitVec 3} (h1 : 1 ≤ b.toNat) (h4 : b.toNat ≤ 4) : ∃ op : OpClass, b = op.bits := by
  have hb : b = 1#3 ∨ b = 2#3 ∨ b = 3#3 ∨ b = 4#3 := by bv_omega
  rcases hb with rfl | rfl | rfl | rfl
  exacts [⟨.init, rfl⟩, ⟨.blk, rfl⟩, ⟨.ecb, rfl⟩, ⟨.cbc, rfl⟩]

/-- A class and an order give the command that has them; INIT with the descending order gives none (R73). -/
theorem Instr.ofClass_eq_ok_iff (op : OpClass) (d : Dir) (i : Instr) :
    Instr.ofClass op d = .ok i ↔ op = i.opClass ∧ d = i.dir := by
  constructor
  · intro h
    cases op <;> cases d <;> cases h <;> exact ⟨rfl, rfl⟩
  · rintro ⟨rfl, rfl⟩
    cases i <;> rfl

theorem Instr.fields_wf (i : Instr) : i.fields.wf = true := by
  cases i
  exacts [Laws.FieldsWellFormed.init, Laws.FieldsWellFormed.encb, Laws.FieldsWellFormed.decb,
    Laws.FieldsWellFormed.ecbe, Laws.FieldsWellFormed.ecbd, Laws.FieldsWellFormed.cbce, Laws.FieldsWellFormed.cbcd]

/-- The fields that pass the check are those of the seven commands. -/
theorem CmdFields.wf_iff (f : CmdFields) : f.wf = true ↔ ∃ i : Instr, f = i.fields := by
  constructor
  · obtain ⟨zero, op, dir⟩ := f
    intro h
    simp only [CmdFields.wf, Bool.and_eq_true, beq_iff_eq, decide_eq_true_eq] at h
    obtain ⟨⟨rfl, h1, h4⟩, hdir⟩ := h
    obtain ⟨cls, rfl⟩ := OpClass.exists_eq_bits h1 h4
    obtain ⟨d, rfl⟩ : ∃ d : Dir, dir = d.bit := ⟨Dir.ofBit dir, (Dir.ofBit_eq_iff dir _).mp rfl⟩
    cases cls <;> cases d
    exacts [⟨.init, rfl⟩, absurd hdir (by decide), ⟨.encb, rfl⟩, ⟨.decb, rfl⟩, ⟨.ecbe, rfl⟩, ⟨.ecbd, rfl⟩, ⟨.cbce, rfl⟩,
      ⟨.cbcd, rfl⟩]
  · rintro ⟨i, rfl⟩
    exact i.fields_wf

/-! ### The decoder and the encoder (R72, R74) -/

theorem CmdFields.ofWord_encode (i : Instr) : CmdFields.ofWord (encode i) = i.fields := by
  cases i <;> rfl

/-- The decoder accepts a word when ZERO is 0, OP is assigned, and the class has a command in the order DIR gives. -/
theorem decode_eq_ok_iff_class (c : CommandWord) (i : Instr) : decode c = .ok i ↔
    (CmdFields.ofWord c).zero = 0#4 ∧ ∃ op, OpClass.ofBits (CmdFields.ofWord c).op = some op ∧
      Instr.ofClass op (Dir.ofBit (CmdFields.ofWord c).dir) = .ok i := by
  unfold decode
  by_cases hz : (CmdFields.ofWord c).zero = 0#4
  · cases hop : OpClass.ofBits (CmdFields.ofWord c).op <;> simp [hz, hop]
  · simp [hz]

/-- A word is a command's exactly when its fields are. -/
theorem decode_eq_ok_iff_fields (c : CommandWord) (i : Instr) : decode c = .ok i ↔ CmdFields.ofWord c = i.fields := by
  rw [decode_eq_ok_iff_class]
  simp [Instr.ofClass_eq_ok_iff, OpClass.ofBits_eq_some_iff, Dir.ofBit_eq_iff, CmdFields.ofWord, Instr.fields]

/-- The only word of a command is its encoding. -/
theorem decode_eq_ok_iff (c : CommandWord) (i : Instr) : decode c = .ok i ↔ c = encode i := by
  rw [decode_eq_ok_iff_fields]
  constructor
  · intro h
    rw [encode, ← h, CmdFields.toWord_ofWord]
  · rintro rfl
    exact CmdFields.ofWord_encode i

theorem decode_encode (i : Instr) : decode (encode i) = .ok i :=
  (decode_eq_ok_iff _ i).mpr rfl

/-- The opcode table's reading of a command word is the decoder's. -/
theorem decodeTableWord_toNat (c : CommandWord) : decodeTableWord 8 c.toNat = (decode c).toOption := by
  have hmod : c.toNat % 2 ^ 8 = c.toNat := Nat.mod_eq_of_lt c.isLt
  rw [decodeTableWord, hmod, if_pos c.isLt, BitVec.ofNat_toNat, BitVec.setWidth_eq]

/-- The rows of the opcode map (R72). -/
def opcodeMap : List (CommandWord × Instr) :=
  [(0x02#8, .init), (0x04#8, .encb), (0x05#8, .decb), (0x06#8, .ecbe), (0x07#8, .ecbd), (0x08#8, .cbce), (0x09#8, .cbcd)]

/-- The map gives each command one word, which is its encoding. -/
theorem mem_opcodeMap_iff (c : CommandWord) (i : Instr) : (c, i) ∈ opcodeMap ↔ c = encode i := by
  cases i <;> simp [opcodeMap] <;> rfl

/-- The illegal words of R74 are no command's. -/
theorem encode_ne_illegal (i : Instr) :
    ¬ (encode i = 0x00#8 ∨ encode i = 0x01#8 ∨ encode i = 0x03#8 ∨ 0x0A ≤ (encode i).toNat) := by
  cases i <;> decide

/-! ### The register numbers (R76) -/

/-- The only number of a register is its own. -/
theorem Reg.ofNumber_eq_some_iff (n : BitVec 5) (r : Reg) : Reg.ofNumber n = some r ↔ n = r.number := by
  constructor
  · unfold Reg.ofNumber
    split_ifs with h0 h1 h2 h3 h4 h5 h6 h7 h16 <;> rintro ⟨⟩
    any_goals assumption
    have hn : 16 + (n.toNat - 16) = n.toNat := Nat.add_sub_cancel' h16
    rw [Reg.number, hn, BitVec.ofNat_toNat, BitVec.setWidth_eq]
  · rintro rfl
    cases r with
    | subkey i => revert i; decide
    | _ => rfl

theorem Reg.ofNumber_number (r : Reg) : Reg.ofNumber r.number = some r :=
  (Reg.ofNumber_eq_some_iff _ r).mpr rfl

theorem Reg.number_subkey_toNat (i : Fin 16) : (Reg.subkey i).number.toNat = 16 + i.val := by
  simp [Reg.number]; omega

/-- The numbers 8 to 15 are no register's. -/
theorem Reg.ofNumber_eq_none {n : BitVec 5} (h8 : 8 ≤ n.toNat) (h15 : n.toNat ≤ 15) : Reg.ofNumber n = none := by
  refine Option.eq_none_iff_forall_ne_some.mpr fun r hr => ?_
  obtain rfl := (Reg.ofNumber_eq_some_iff n r).mp hr
  cases r with
  | subkey i => rw [Reg.number_subkey_toNat] at h15; omega
  | _ => exact absurd h8 (by decide)

/-- The registers numbered 0, 4 and 16 to 31 are read-only; 8 to 15 are no register's. -/
theorem Reg.not_writable_of_number {r : Reg} (h : r.number = 0#5 ∨ r.number = 4#5 ∨ 16 ≤ r.number.toNat ∨
    (8 ≤ r.number.toNat ∧ r.number.toNat ≤ 15)) : r.writable = false := by
  cases r with
  | status | dout | subkey => rfl
  | _ => exact absurd h (by decide)

namespace Machine

/-! ### Reading and writing a register (R75, R78) -/

/-- A register reads the value just written to it where it is read-write, and else what it read before. -/
theorem State.readReg_writeReg (s : State) (r q : Reg) (v : BitVec 64) :
    (s.writeReg r v).readReg q = if r.writable = true ∧ q = r then v else s.readReg q := by
  cases r with
  | status | dout | subkey => rfl
  | _ => cases q <;> rfl

/-- A write changes nothing but the registers. -/
theorem State.writeReg_eq (s : State) (r : Reg) (v : BitVec 64) :
    s.writeReg r v = { s with regs := (s.writeReg r v).regs } := by
  cases r <;> rfl

theorem regWrite_of_writable {n : BitVec 5} {r : Reg} {v : BitVec 64} {s : State} (hn : Reg.ofNumber n = some r)
    (hw : r.writable = true) (hv : v.toNat < 2 ^ r.width s.config) : regWrite n v s = .next (s.writeReg r v) := by
  simp [regWrite, hn, hw, hv]

theorem regWrite_of_not_writable {n : BitVec 5} (h : ∀ r, Reg.ofNumber n = some r → r.writable = false) (v : BitVec 64)
    (s : State) : regWrite n v s = .next s := by
  rcases regWrite_cases n v s with ⟨-, e⟩ | ⟨r, hn, hw, -⟩
  · exact e
  · exact absurd hw (Bool.eq_false_iff.mp (h r hn))

theorem regReadValue_of_some {n : BitVec 5} {r : Reg} (h : Reg.ofNumber n = some r) (s : State) :
    regReadValue n s = s.readReg r := by
  rw [regReadValue, h]

theorem regReadValue_of_none {n : BitVec 5} (h : Reg.ofNumber n = none) (s : State) : regReadValue n s = 0#64 := by
  rw [regReadValue, h]

/-- A step whose action is RegRead replies with the value read, and changes nothing else. -/
theorem step_regRead {s : State} {n : BitVec 5} (h : s.nextAction = some (.regRead n)) :
    step s = .next { s.popAction with replies := .reg n (regReadValue n s) :: s.replies } :=
  step_of_nextAction h

/-- Settles O7: the step writes the register, whose rules are `State.readReg_writeReg` and `State.writeReg_eq`, or reads
it. -/
theorem registerAccessIsWhole : Obligations.RegisterAccessIsWhole := by
  refine ⟨fun s n r v hn hw hv hact => ?_, fun s n r hn hact => ?_, fun s => ?_⟩
  · refine ⟨s.popAction.writeReg r v, (step_of_nextAction hact).trans (regWrite_of_writable hn hw hv), ?_, fun q hq => ?_,
      State.writeReg_eq _ r v⟩
    · rw [State.readReg_writeReg, if_pos ⟨hw, rfl⟩]
    · rw [State.readReg_writeReg, if_neg fun h => hq h.2]
      cases q <;> rfl
  · rw [step_regRead hact, regReadValue_of_some hn]
  · exact ⟨rfl, rfl, rfl, rfl, rfl, rfl, rfl, rfl, fun _ => rfl⟩

/-- Settles O8: none of these numbers is a read-write register's by `Reg.not_writable_of_number`, and the unassigned ones
are no register's. -/
theorem readOnlyAndUnassignedNumbers : Obligations.ReadOnlyAndUnassignedNumbers := by
  refine ⟨fun s n v hn hact => ?_, fun s n h8 h15 hact => ?_⟩
  · refine (step_of_nextAction hact).trans (regWrite_of_not_writable (fun r hr => ?_) v s.popAction)
    obtain rfl := (Reg.ofNumber_eq_some_iff n r).mp hr
    exact Reg.not_writable_of_number hn
  · rw [step_regRead hact, regReadValue_of_none (Reg.ofNumber_eq_none h8 h15)]

/-- Settles O3: each pair is a register with its own number, by `Reg.ofNumber_eq_some_iff`. -/
theorem registerNumbersNameTheRegisters : Obligations.RegisterNumbersNameTheRegisters := by
  refine ⟨fun n => Reg.ofNumber_eq_none, Reg.ofNumber_number, fun c e he => ?_, fun c i => ⟨?_, rfl, rfl⟩⟩
  · rw [Reg.ofNumber_eq_some_iff]
    fin_cases he <;> exact ⟨rfl, rfl, rfl⟩
  · have hnum : 15 + (i.val + 1) = 16 + i.val := by omega
    rw [hnum]
    exact Reg.ofNumber_number (.subkey i)

/-! ### Commands, scripts and steps -/

/-- Settles O1: the map is the encoder's by `mem_opcodeMap_iff`, and so are the fields of its words. -/
theorem opcodeMapIsSevenWords : Obligations.OpcodeMapIsSevenWords :=
  ⟨fun c i => (decode_eq_ok_iff c i).trans (mem_opcodeMap_iff c i).symm, CmdFields.ofWord_encode .init,
    CmdFields.ofWord_encode .encb, CmdFields.ofWord_encode .decb, CmdFields.ofWord_encode .ecbe,
    CmdFields.ofWord_encode .ecbd, CmdFields.ofWord_encode .cbce, CmdFields.ofWord_encode .cbcd⟩

/-- Settles O2: the round trips are `decode_eq_ok_iff`, and the check is `CmdFields.wf_iff` of the word's fields. -/
theorem decodeInvertsEncode : Obligations.DecodeInvertsEncode := by
  refine ⟨decode_encode, fun c i h => ((decode_eq_ok_iff c i).mp h).symm, fun c => ?_, fun i => ?_⟩
  · rw [CmdFields.wf_iff]
    exact exists_congr (decode_eq_ok_iff_fields c)
  · rw [decodeTableWord_toNat, decode_encode]
    rfl

/-- Settles O4: a pseudo-line's actions are those of its expansion's lines, joined. -/
theorem pseudoLinesExpand : Obligations.PseudoLinesExpand :=
  ⟨fun _ => rfl, fun _ _ _ => rfl, fun _ => rfl, fun _ => rfl⟩

theorem issueWord_of_decode {c : CommandWord} {i : Instr} (h : decode c = .ok i) (s : State) :
    issueWord c s = exec i s := by
  rw [issueWord, h]

/-- A word that is no command's encoding is rejected ILLCMD (R74). -/
theorem issueWord_of_ne_encode {c : CommandWord} (h : ∀ i, c ≠ encode i) (s : State) :
    issueWord c s = .next (s.reject .illcmd) := by
  rcases issueWord_cases c s with ⟨i, hd, -⟩ | ⟨_, -, e⟩
  · exact absurd ((decode_eq_ok_iff c i).mp hd) (h i)
  · exact e

/-- A state given a command word has its Issue as the next action. -/
theorem State.nextAction_withFetchWord (s : State) (c : CommandWord) :
    (s.withFetchWord 8 c.toNat).nextAction = some (.issue c) := by
  have hmod : c.toNat % 2 ^ 8 = c.toNat := Nat.mod_eq_of_lt c.isLt
  simp only [State.withFetchWord, withIssue, State.nextAction, hmod, BitVec.ofNat_toNat, BitVec.setWidth_eq]
  rfl

theorem State.popAction_withFetchWord (s : State) (nbits w : Nat) : (s.withFetchWord nbits w).popAction = s := rfl

theorem step_of_issue_command {s : State} {c : CommandWord} {i : Instr} (hact : s.nextAction = some (.issue c))
    (hd : decode c = .ok i) : step s = exec i s.popAction :=
  (step_of_nextAction hact).trans (issueWord_of_decode hd s.popAction)

/-- Settles O5: `step_of_issue_command`, on the given state and on one given the word by withFetchWord. -/
theorem stepRunsTheDecodedCommand : Obligations.StepRunsTheDecodedCommand := by
  refine ⟨fun s c i => step_of_issue_command, fun s i => ?_⟩
  rw [step_of_issue_command (s.nextAction_withFetchWord (encode i)) (decode_encode i), State.popAction_withFetchWord]

/-- Settles O6: the words named are no command's by `encode_ne_illegal`; all 256 words are decoded to count them. -/
theorem illegalWordsAreRejected : Obligations.IllegalWordsAreRejected := by
  refine ⟨fun s c hact hc => ?_, by decide +kernel⟩
  refine (step_of_nextAction hact).trans (issueWord_of_ne_encode (fun i hi => ?_) s.popAction)
  exact encode_ne_illegal i (hi ▸ hc)

end Machine
end Sys2Proof
end

section
/-! PROOFS. The bit-permutation engine in position form, positions counted from 1 at the most significant bit: what PERMUTE
and ROTL put at each position, and the rotations of the key halves added up; and from these the statements of
40_permutation.md. -/

namespace Sys2Proof.Machine

/-! ### Positions (00_scope.md R8) -/

/-- A value is determined by its bits at the positions 1 .. w. -/
theorem eq_of_bitAt_eq {w : Nat} {u v : BitVec w} (h : ∀ p, 1 ≤ p → p ≤ w → bitAt u p = bitAt v p) : u = v := by
  apply BitVec.eq_of_getLsbD_eq
  intro i hi
  have hp := h (w - i) (by omega) (by omega)
  rwa [bitAt_eq_getLsbD, bitAt_eq_getLsbD, Nat.sub_sub_self hi.le] at hp

@[simp] theorem bitAt_zero {w : Nat} (p : Nat) : bitAt (0#w) p = false := by simp [bitAt]

theorem bitAt_allOnes {w p : Nat} (h1 : 1 ≤ p) (hw : p ≤ w) : bitAt (BitVec.allOnes w) p = true := by
  simp [bitAt]; omega

@[simp] theorem bitAt_xor {w : Nat} (a b : BitVec w) (p : Nat) : bitAt (a ^^^ b) p = (bitAt a p ^^ bitAt b p) :=
  BitVec.getLsbD_xor

/-- The value with a one at position q alone tells q from every other position. -/
theorem eq_of_forall_bitAt_eq {w p q : Nat} (hp : p ≤ w) (hq1 : 1 ≤ q) (hq : q ≤ w)
    (h : ∀ v : BitVec w, bitAt v p = bitAt v q) : p = q := by
  have hone := h (BitVec.twoPow w (w - q))
  have hlt : w - q < w := by omega
  have hidx : w - q = w - p := by simpa [bitAt, BitVec.getLsbD_twoPow, hlt] using hone
  omega

/-! ### PERMUTE (R100, R101) -/

theorem tableWf_iff {w : Nat} {t : List Nat} : tableWf w t = true ↔ ∀ p ∈ t, 1 ≤ p ∧ p ≤ w := by
  simp [tableWf]

section
variable {n w : Nat} {t : List Nat} (hn : t.length = n)
include hn

/-- PERMUTE in position form (R100). -/
theorem bitAt_permute (v : BitVec w) {i : Nat} (hi : i < t.length) : bitAt (permute n t v) (i + 1) = bitAt v t[i] := by
  have hidx : n - 1 - (n - (i + 1)) = i := by omega
  rw [bitAt_eq_getLsbD, getLsbD_permute hn v (by omega), hidx, List.getD_eq_getElem _ _ hi]

/-- A value is PERMUTE's result when each position i holds the bit of position T[i]. -/
theorem permute_eq_of_bitAt {v : BitVec w} {u : BitVec n} (h : ∀ i, (hi : i < t.length) → bitAt v t[i] = bitAt u (i + 1)) :
    permute n t v = u := by
  refine eq_of_bitAt_eq fun p h1 hp => ?_
  obtain ⟨i, rfl⟩ := Nat.exists_eq_add_of_le' h1
  have hi : i < t.length := by omega
  rw [bitAt_permute hn v hi, h i hi]

theorem permute_zero : permute n t (0#w) = 0#n :=
  permute_eq_of_bitAt hn fun i _ => by rw [bitAt_zero, bitAt_zero]

theorem permute_allOnes (hwf : tableWf w t = true) : permute n t (BitVec.allOnes w) = BitVec.allOnes n := by
  refine permute_eq_of_bitAt hn fun i hi => ?_
  obtain ⟨h1, hw⟩ := tableWf_iff.mp hwf _ (List.getElem_mem hi)
  rw [bitAt_allOnes h1 hw, bitAt_allOnes (by omega) (by omega)]

theorem permute_xor (a b : BitVec w) : permute n t (a ^^^ b) = permute n t a ^^^ permute n t b :=
  permute_eq_of_bitAt hn fun i hi => by rw [bitAt_xor, bitAt_xor, bitAt_permute hn a hi, bitAt_permute hn b hi]

/-- PERMUTE with u undoes PERMUTE with t when t's entry at position u[i] is i. -/
theorem permute_permute_eq_self {u : List Nat} (hu : u.length = n) (hwf : tableWf n u = true)
    (hinv : ∀ i, i < n → t.getD (u.getD i 0 - 1) 0 = i + 1) (v : BitVec n) : permute n u (permute n t v) = v := by
  refine permute_eq_of_bitAt hu fun i hi => ?_
  obtain ⟨h1, hle⟩ := tableWf_iff.mp hwf _ (List.getElem_mem hi)
  have hti := hinv i (by omega)
  rw [List.getD_eq_getElem _ _ hi, List.getD_eq_getElem _ _ (by omega)] at hti
  calc bitAt (permute n t v) u[i]
      = bitAt (permute n t v) (u[i] - 1 + 1) := by rw [Nat.sub_add_cancel h1]
    _ = bitAt v t[u[i] - 1] := bitAt_permute hn v (by omega)
    _ = bitAt v (i + 1) := by rw [hti]

end

/-- Settles O18: `bitAt_permute`, `permute_zero` and `permute_allOnes`; the value stated is computed. -/
theorem permuteRoutesPositions : Obligations.PermuteRoutesPositions := by
  refine ⟨fun n w t v hn hwf => ⟨fun i hi => bitAt_permute hn v hi, permute_zero hn, permute_allOnes hn hwf⟩, ?_⟩
  decide +kernel

/-- Settles O22: `permute_xor`; the source of position i is T[i], and the only one by `eq_of_forall_bitAt_eq`. -/
theorem permuteIsLinear : Obligations.PermuteIsLinear := by
  refine fun n w t hn hwf => ⟨permute_xor hn, fun i hin => ?_⟩
  have hi : i < t.length := by omega
  obtain ⟨h1, hw⟩ := tableWf_iff.mp hwf _ (List.getElem_mem hi)
  refine ⟨t[i], ⟨⟨h1, hw⟩, fun v => bitAt_permute hn v hi⟩, ?_⟩
  rintro p ⟨⟨-, hpw⟩, hp⟩
  exact eq_of_forall_bitAt_eq hpw h1 hw fun v => (hp v).symm.trans (bitAt_permute hn v hi)

/-! ### The tables (R101, R102, R112) -/

/-- Settles O19: each part is a check of the entries of the constant tables. -/
theorem tablesAreWellFormedOfTheirKind : Obligations.TablesAreWellFormedOfTheirKind := by
  refine ⟨?_, ?_, ?_, ?_, ?_, ?_⟩ <;> decide +kernel

theorem tableIP_getD_tableFP : ∀ i, i < 64 → tableIP.getD (tableFP.getD i 0 - 1) 0 = i + 1 := by decide +kernel

theorem tableFP_getD_tableIP : ∀ i, i < 64 → tableFP.getD (tableIP.getD i 0 - 1) 0 = i + 1 := by decide +kernel

/-- Settles O21: the entries are compared one by one, and `permute_permute_eq_self` makes functions of them. -/
theorem finalPermutationInvertsInitial : Obligations.FinalPermutationInvertsInitial := by
  obtain ⟨hwf, -⟩ := tablesAreWellFormedOfTheirKind
  obtain ⟨hIP, hlenIP⟩ := hwf (tableIP, 64, 64) (by simp)
  obtain ⟨hFP, hlenFP⟩ := hwf (tableFP, 64, 64) (by simp)
  exact ⟨fun i hi => ⟨tableFP_getD_tableIP i hi, tableIP_getD_tableFP i hi⟩,
    permute_permute_eq_self hlenIP hlenFP hFP tableIP_getD_tableFP,
    permute_permute_eq_self hlenFP hlenIP hIP tableFP_getD_tableIP⟩

/-! ### ROTL (R103) -/

/-- ROTL in position form (R103). -/
theorem bitAt_rotl {w s p : Nat} (hs : 1 ≤ s) (hsw : s ≤ w) (v : BitVec w) (h1 : 1 ≤ p) (hp : p ≤ w) :
    bitAt (rotl s v) p = bitAt v ((p - 1 + s) % w + 1) := by
  rw [bitAt_eq_getLsbD, bitAt_eq_getLsbD, getLsbD_rotl hs hsw v (by omega)]
  congr 1
  by_cases hlt : p - 1 + s < w
  · have hsrc : w - p + (w - s) = (w - p - s) + w := by omega
    rw [Nat.mod_eq_of_lt hlt, hsrc, Nat.add_mod_right, Nat.mod_eq_of_lt (by omega)]
    omega
  · have hwrap : p - 1 + s = (p - 1 + s - w) + w := by omega
    rw [hwrap, Nat.add_mod_right, Nat.mod_eq_of_lt (a := p - 1 + s - w) (by omega), Nat.mod_eq_of_lt (by omega)]
    omega

@[simp] theorem rotl_self {w : Nat} (v : BitVec w) : rotl w v = v := by
  refine eq_of_bitAt_eq fun p h1 hp => ?_
  have hsrc : (p - 1 + w) % w + 1 = p := by
    rw [Nat.add_mod_right, Nat.mod_eq_of_lt (by omega), Nat.sub_add_cancel h1]
  rw [bitAt_rotl (by omega) le_rfl v h1 hp, hsrc]

@[simp] theorem rotl_zero {w : Nat} (s : Nat) : rotl s (0#w) = 0#w := by simp [rotl]

theorem rotl_allOnes {w s : Nat} (hs : 1 ≤ s) (hsw : s ≤ w) : rotl s (BitVec.allOnes w) = BitVec.allOnes w := by
  refine eq_of_bitAt_eq fun p h1 hp => ?_
  have hsrc : (p - 1 + s) % w < w := Nat.mod_lt _ (by omega)
  rw [bitAt_rotl hs hsw _ h1 hp, bitAt_allOnes h1 hp, bitAt_allOnes (by omega) hsrc]

/-- Settles O20: `bitAt_rotl` and what it makes of the corner cases; the two values stated are computed. -/
theorem rotateMovesPositions : Obligations.RotateMovesPositions :=
  ⟨fun _ s v hs hsw => ⟨fun _ => bitAt_rotl hs hsw v, rotl_self v, rotl_zero s, rotl_allOnes hs hsw⟩,
    by decide, by decide⟩

/-! ### The rotations of the key halves (R111, R122, R128) -/

/-- SHIFT[1] + … + SHIFT[i], the rotation of C0 and D0 after round i (R122). -/
def totalShift (i : Nat) : Nat :=
  ((List.range i).map fun j => shiftCount (j + 1)).sum

theorem totalShift_succ (i : Nat) : totalShift (i + 1) = totalShift i + shiftCount (i + 1) :=
  List.sum_range_succ _ i

theorem KeyHalves.rotate_rotate (h : KeyHalves) {s r : Nat} (hs : 1 ≤ s) (hr : 1 ≤ r) (hle : s + r ≤ 28) :
    (h.rotate s).rotate r = h.rotate (s + r) := by
  simp only [KeyHalves.rotate, rotl_rotl hs hr hle]

theorem KeyHalves.rotate_28 (h : KeyHalves) : h.rotate 28 = h := by
  simp only [KeyHalves.rotate, rotl_self]

/-- A round rotates what the round before left (R120). -/
theorem keyHalves_succ (key : Block) (i : Nat) :
    keyHalves key (i + 1) = (keyHalves key i).rotate (shiftCount (i + 1)) := rfl

/-- No round overruns the width of the halves, so the rotations can be added. -/
theorem totalShift_bounds : ∀ i, i < 15 → 1 ≤ totalShift (i + 1) ∧ 1 ≤ shiftCount (i + 2) ∧ totalShift (i + 2) ≤ 28 := by
  decide

/-- After each round the halves are the initial ones, rotated by the cumulative count (R122). -/
theorem keyHalves_succ_eq_rotate (key : Block) {i : Nat} (hi : i < 16) :
    keyHalves key (i + 1) = (keyHalves key 0).rotate (totalShift (i + 1)) := by
  induction i with
  | zero => rfl
  | succ i ih =>
    obtain ⟨htotal, hcount, hle⟩ := totalShift_bounds i (by omega)
    rw [totalShift_succ] at hle ⊢
    rw [keyHalves_succ, ih (by omega), KeyHalves.rotate_rotate _ htotal hcount hle]

/-- The cumulative counts as R122 lists them. -/
theorem totalShift_eq_getD : ∀ i, i < 16 →
    totalShift (i + 1) = [1, 2, 4, 6, 8, 10, 12, 14, 15, 17, 19, 21, 23, 25, 27, 28].getD i 0 := by
  decide

/-- The counts sum to the width of the halves (R111). -/
theorem totalShift_16 : totalShift 16 = 28 := by decide

/-- Sixteen rounds rotate the halves once around (R128). -/
theorem keyHalves_16 (key : Block) : keyHalves key 16 = keyHalves key 0 := by
  rw [keyHalves_succ_eq_rotate key (by omega), totalShift_16, KeyHalves.rotate_28]

theorem keySchedule_get (key : Block) (i : Fin 16) : (keySchedule key).get i = subkeyOf key (i.val + 1) := by
  simp [keySchedule, Vector.get_eq_getElem]

/-- Settles O23: the halves after a round are those of `keyHalves_succ_eq_rotate`, and after the last those of
`keyHalves_16`. -/
theorem rotationsAccumulateAndReturn : Obligations.RotationsAccumulateAndReturn := by
  refine ⟨fun i h1 h16 => ?_, totalShift_16, fun key i hi => ?_, fun key => ?_⟩
  · interval_cases i <;> rfl
  · rw [← totalShift_eq_getD i hi, keyHalves_succ_eq_rotate key hi]
    exact ⟨rfl, rfl⟩
  · have hlast : (keySchedule key).get 15 = subkeyOf key 16 := keySchedule_get key 15
    rw [hlast, subkeyOf, keyHalves_16]
    exact ⟨rfl, rfl, rfl⟩

end Sys2Proof.Machine
end

section
/-! PROOFS. Which bits of the key each subkey holds, and what follows for keys that differ in parity bits and for keys with
uniform halves; and INIT: the statements of 41_key_schedule.md. -/

namespace Sys2Proof.Machine

/-! ### The two halves joined (00_scope.md R8, 41_key_schedule.md R123) -/

theorem bitAt_append_left {w n p : Nat} (a : BitVec w) (b : BitVec n) (hp : p ≤ w) : bitAt (a ++ b) p = bitAt a p := by
  have hidx : w + n - p - n = w - p := by omega
  rw [bitAt_eq_getLsbD, bitAt_eq_getLsbD, BitVec.getLsbD_append, if_neg (by omega), hidx]

theorem bitAt_append_right {w n q : Nat} (a : BitVec w) (b : BitVec n) (h1 : 1 ≤ q) (hq : q ≤ n) :
    bitAt (a ++ b) (w + q) = bitAt b q := by
  rw [bitAt_eq_getLsbD, bitAt_eq_getLsbD, BitVec.getLsbD_append, if_pos (by omega), Nat.add_sub_add_left]

theorem tablePC1_wf : tableWf 64 tablePC1 = true ∧ tablePC1.length = 56 :=
  tablesAreWellFormedOfTheirKind.1 (tablePC1, 64, 56) (by simp)

theorem tablePC2_wf : tableWf 56 tablePC2 = true ∧ tablePC2.length = 48 :=
  tablesAreWellFormedOfTheirKind.1 (tablePC2, 56, 48) (by simp)

/-- Position p of a subkey is position PC2[p] of the halves joined (R123). -/
theorem bitAt_subkeyOf (key : Block) (i : Nat) {p : Nat} (h1 : 1 ≤ p) (hp : p ≤ 48) : bitAt (subkeyOf key i) p =
    bitAt ((keyHalves key i).c ++ (keyHalves key i).d) (tablePC2.getD (p - 1) 0) := by
  obtain ⟨-, hlen⟩ := tablePC2_wf
  obtain ⟨j, rfl⟩ := Nat.exists_eq_add_of_le' h1
  rw [Nat.add_sub_cancel, List.getD_eq_getElem _ _ (by omega)]
  exact bitAt_permute hlen _ (by omega)

/-- PC2's first 24 entries lie in C. -/
theorem tablePC2_getD_lower : ∀ j, j < 24 → 1 ≤ tablePC2.getD j 0 ∧ tablePC2.getD j 0 ≤ 28 := by decide

/-- PC2's last 24 entries lie in D. -/
theorem tablePC2_getD_upper : ∀ j, j < 24 → 29 ≤ tablePC2.getD (24 + j) 0 ∧ tablePC2.getD (24 + j) 0 ≤ 56 := by decide

/-- Settles O24: `bitAt_subkeyOf` names the source, and the entries of PC2 say in which half it lies. -/
theorem subkeyBitsComeFromTheirHalf : Obligations.SubkeyBitsComeFromTheirHalf := by
  refine ⟨fun p h1 h24 => ?_, fun p h25 h48 => ?_, fun key i => bitAt_subkeyOf key i le_rfl (by omega)⟩
  · obtain ⟨hq1, hq⟩ := tablePC2_getD_lower (p - 1) (by omega)
    refine ⟨tablePC2.getD (p - 1) 0, ⟨hq1, hq⟩, fun key i => ?_⟩
    rw [bitAt_subkeyOf key i h1 (by omega), bitAt_append_left _ _ hq]
  · obtain ⟨j, rfl⟩ := Nat.exists_eq_add_of_le h25
    obtain ⟨hq29, hq⟩ := tablePC2_getD_upper j (by omega)
    obtain ⟨q, hsrc⟩ := Nat.exists_eq_add_of_le (show 28 ≤ tablePC2.getD (24 + j) 0 by omega)
    have hidx : 25 + j - 1 = 24 + j := by omega
    refine ⟨q, by omega, fun key i => ?_⟩
    rw [bitAt_subkeyOf key i (by omega) h48, hidx, hsrc, bitAt_append_right _ _ (by omega) (by omega)]

/-! ### The parity positions (R125) -/

/-- PC1 takes no parity position. -/
theorem mod_eight_of_mem_tablePC1 : ∀ p ∈ tablePC1, p % 8 ≠ 0 := by decide

theorem permute_tablePC1_of_parity {m : Block} (hm : ∀ p, 1 ≤ p → p ≤ 64 → bitAt m p = true → p % 8 = 0) :
    permute 56 tablePC1 m = 0#56 := by
  obtain ⟨hwf, hlen⟩ := tablePC1_wf
  refine permute_eq_of_bitAt hlen fun i hi => ?_
  have hmem : tablePC1[i] ∈ tablePC1 := List.getElem_mem hi
  obtain ⟨h1, h64⟩ := tableWf_iff.mp hwf _ hmem
  rw [bitAt_zero, Bool.eq_false_iff]
  exact fun hbit => mod_eight_of_mem_tablePC1 _ hmem (hm _ h1 h64 hbit)

/-- A key enters the schedule through PC1 alone (R120). -/
theorem keySchedule_congr {k k' : Block} (h : permute 56 tablePC1 k = permute 56 tablePC1 k') :
    keySchedule k = keySchedule k' := by
  have hhalves (i : Nat) : keyHalves k i = keyHalves k' i := by
    induction i with
    | zero => simp only [keyHalves, keyHalvesInit, h]
    | succ i ih => rw [keyHalves_succ, keyHalves_succ, ih]
  simp only [keySchedule, subkeyOf, hhalves]

/-- Settles O25: PC1 of the mask is zero, so by `permute_xor` it changes nothing that the schedule sees. -/
theorem parityBitsAffectNoSubkey : Obligations.ParityBitsAffectNoSubkey := by
  intro k m hm
  obtain ⟨-, hlen⟩ := tablePC1_wf
  refine keySchedule_congr ?_
  rw [permute_xor hlen, permute_tablePC1_of_parity hm, BitVec.xor_zero]

/-! ### Uniform halves (R129) -/

/-- All zeros or all ones. -/
def UniformHalf (u : KeyHalf) : Prop :=
  u = 0#28 ∨ u = BitVec.allOnes 28

theorem UniformHalf.rotl_eq {u : KeyHalf} (h : UniformHalf u) {s : Nat} (hs : 1 ≤ s) (hle : s ≤ 28) : rotl s u = u := by
  rcases h with rfl | rfl
  · exact rotl_zero s
  · exact rotl_allOnes hs hle

theorem shiftCount_bounds : ∀ i, i < 16 → 1 ≤ shiftCount (i + 1) ∧ shiftCount (i + 1) ≤ 28 := by decide

section
variable {key : Block} (hc : UniformHalf (keyHalves key 0).c) (hd : UniformHalf (keyHalves key 0).d)
include hc hd

/-- No round moves uniform halves. -/
theorem keyHalves_of_uniform {i : Nat} (hi : i ≤ 16) : keyHalves key i = keyHalves key 0 := by
  induction i with
  | zero => rfl
  | succ i ih =>
    obtain ⟨h1, hle⟩ := shiftCount_bounds i hi
    rw [keyHalves_succ, ih (by omega), KeyHalves.rotate, hc.rotl_eq h1 hle, hd.rotl_eq h1 hle]

theorem keySchedule_of_uniform : keySchedule key = Vector.replicate 16 (subkeyOf key 0) := by
  ext i hi
  simp only [keySchedule, subkeyOf, Vector.getElem_ofFn, Vector.getElem_replicate, keyHalves_of_uniform hc hd hi]

end

theorem subkeyAt_replicate (v : Subkey) {n : Nat} (h1 : 1 ≤ n) (h16 : n ≤ 16) :
    subkeyAt (Vector.replicate 16 v) n = v := by
  rw [subkeyAt, Vector.toList_replicate, List.getD_replicate _ (by omega)]

/-- With equal subkeys it does not matter from which end a direction takes them (43_block_core.md R162). -/
theorem roundKey_replicate (dir : Dir) (v : Subkey) {n : Nat} (h1 : 1 ≤ n) (h16 : n ≤ 16) :
    roundKey dir (Vector.replicate 16 v) n = v := by
  cases dir with
  | enc => exact subkeyAt_replicate v h1 h16
  | dec => exact subkeyAt_replicate v (by omega) (by omega)

theorem halvesAfter_replicate (dir dir' : Dir) (v : Subkey) (b : Block) {n : Nat} (hn : n ≤ 16) :
    halvesAfter dir (Vector.replicate 16 v) b n = halvesAfter dir' (Vector.replicate 16 v) b n := by
  induction n with
  | zero => rfl
  | succ n ih =>
    rw [halvesAfter, halvesAfter, ih (by omega), roundKey_replicate dir v (by omega) hn,
      roundKey_replicate dir' v (by omega) hn]

/-- Settles O26: rounds keep uniform halves, so `keySchedule_of_uniform` gives one subkey sixteen times, and
`halvesAfter_replicate` makes the directions one; the schedules of the four named keys are computed. -/
theorem uniformHalvesGiveEqualSubkeys : Obligations.UniformHalvesGiveEqualSubkeys := by
  refine ⟨fun key hc hd => ?_, ?_, ?_, ?_, ?_⟩
  · rw [keySchedule_of_uniform hc hd]
    exact ⟨fun i j => by simp [Vector.get_eq_getElem],
      fun b => congrArg Halves.output (halvesAfter_replicate .enc .dec _ b le_rfl)⟩
  all_goals decide +kernel

/-! ### INIT (R126) -/

theorem exec_init (s : State) : exec .init s =
    .next { s with regs := { s.regs with k := keySchedule s.regs.key }, status := s.status.completedInit } := rfl

/-- Settles O27: the fields of the next state of `exec_init` by the laws of STATUS and `keySchedule_get`; the illegal word is
decoded and the two subkeys stated are computed. -/
theorem initBuildsTheContext : Obligations.InitBuildsTheContext := by
  refine ⟨fun s => ⟨_, exec_init s, ?_, ?_, ?_, ?_, rfl⟩, (decode_eq_init_iff _).mpr rfl, rfl, by decide +kernel,
    by decide +kernel⟩
  · exact keySchedule_get s.regs.key
  · exact Status.kvalid_completedInit s.status
  · exact Status.lasterr_completedInit s.status
  · exact Status.sticky_completedInit s.status

end Sys2Proof.Machine
end

section
/-! PROOFS. The S-boxes row by row and the entry a 6-bit group names, and the nibbles that F's permutation is given: the
statements of 42_round_function.md. -/

namespace Sys2Proof.Machine

/-! ### Row and column (R142) -/

@[simp] theorem toNat_getElem_bit (b : BitVec 1) : b[0].toNat = b.toNat := by decide +revert

theorem toNat_append_bit {w : Nat} (v : BitVec w) (b : BitVec 1) : (v ++ b).toNat = 2 * v.toNat + b.toNat := by
  rw [BitVec.toNat_append, ← Nat.shiftLeft_add_eq_or_of_lt b.isLt, Nat.shiftLeft_eq, pow_one, Nat.mul_comm]

/-! The width 6 of a group is restated as the sum of the widths joined, in which form the append lemmas apply. -/

theorem sboxRow_append (b1 b2 b3 b4 b5 b6 : BitVec 1) :
    sboxRow (b1 ++ b2 ++ b3 ++ b4 ++ b5 ++ b6) = 2 * b1.toNat + b6.toNat := by
  change 2 * (BitVec.getLsbD (w := 1 + 1 + 1 + 1 + 1 + 1) _ 5).toNat +
    (BitVec.getLsbD (w := 1 + 1 + 1 + 1 + 1 + 1) _ 0).toNat = _
  simp only [BitVec.getLsbD_append]
  simp

theorem sboxCol_append (b1 b2 b3 b4 b5 b6 : BitVec 1) :
    sboxCol (b1 ++ b2 ++ b3 ++ b4 ++ b5 ++ b6) = 8 * b2.toNat + 4 * b3.toNat + 2 * b4.toNat + b5.toNat := by
  change (BitVec.extractLsb' (n := 1 + 1 + 1 + 1 + 1 + 1) 1 4 _).toNat = _
  simp only [BitVec.extractLsb'_toNat, toNat_append_bit]
  omega

theorem sboxRow_lt (b : BitVec 6) : sboxRow b < 4 := by
  have h5 := Bool.toNat_le (b.getLsbD 5)
  have h0 := Bool.toNat_le (b.getLsbD 0)
  rw [sboxRow]
  omega

theorem sboxCol_lt (b : BitVec 6) : sboxCol b < 16 :=
  BitVec.isLt _

/-! ### The S-boxes (R143 to R151) -/

/-- Four rows, each a permutation of 0 .. 15. -/
theorem sboxTable_rows {g : Nat} (h1 : 1 ≤ g) (h8 : g ≤ 8) :
    (sboxTable g).length = 4 ∧ ∀ row ∈ sboxTable g, row.Perm (List.range 16) := by
  interval_cases g <;> decide +kernel

/-- SBOX is total: row and column exist, and an entry, being below 16, is the 4-bit result itself. -/
theorem sbox_eq_entry {g : Nat} (b : BitVec 6) (h1 : 1 ≤ g) (h8 : g ≤ 8) :
    ∃ row, (sboxTable g)[sboxRow b]? = some row ∧ ∃ x, row[sboxCol b]? = some x ∧ (sbox g b).toNat = x := by
  obtain ⟨hlen, hperm⟩ := sboxTable_rows h1 h8
  have hrow : sboxRow b < (sboxTable g).length := hlen ▸ sboxRow_lt b
  have hentries := hperm _ (List.getElem_mem hrow)
  have hcol : sboxCol b < (sboxTable g)[sboxRow b].length := by simpa [hentries.length_eq] using sboxCol_lt b
  have hx : (sboxTable g)[sboxRow b][sboxCol b] < 16 := List.mem_range.mp (hentries.mem_iff.mp (List.getElem_mem hcol))
  refine ⟨_, List.getElem?_eq_getElem hrow, _, List.getElem?_eq_getElem hcol, ?_⟩
  rw [sbox, List.getD_eq_getElem _ _ hrow, List.getD_eq_getElem _ _ hcol, BitVec.toNat_ofNat, Nat.mod_eq_of_lt hx]

/-- Settles O29: `sboxRow_append` and `sboxCol_append` are the index split, `sboxTable_rows` gives length and entries of each
row, and `sbox_eq_entry` the entry named; the entry of R143's example is computed. -/
theorem sboxRowsAndColumns : Obligations.SboxRowsAndColumns := by
  refine ⟨fun b1 b2 b3 b4 b5 b6 => ⟨sboxRow_append .., sboxCol_append ..⟩, fun g h1 h8 => ?_, fun g b => sbox_eq_entry b,
    by decide⟩
  obtain ⟨hlen, hperm⟩ := sboxTable_rows h1 h8
  exact ⟨hlen, fun row hrow => ⟨by simpa using (hperm row hrow).length_eq,
    fun x hx => (hperm row hrow).mem_iff.mpr (List.mem_range.mpr hx)⟩⟩

/-! ### The eight nibbles joined (R140, R152) -/

/-- nib 1 ‖ … ‖ nib (n + 1), the first most significant: the concatenation of R140's step 5 for any number of nibbles. -/
def joinNibbles (nib : Nat → BitVec 4) : (n : Nat) → BitVec (4 * (n + 1))
  | 0 => nib 1
  | n + 1 => joinNibbles nib n ++ nib (n + 2)

theorem extractLsb'_joinNibbles (nib : Nat → BitVec 4) {n g : Nat} (h1 : 1 ≤ g) (hg : g ≤ n + 1) :
    (joinNibbles nib n).extractLsb' (4 * (n + 1) - 4 * g) 4 = nib g := by
  induction n with
  | zero =>
    obtain rfl : g = 1 := by omega
    exact BitVec.extractLsb'_eq_self
  | succ n ih =>
    obtain rfl | hlt := Nat.eq_or_lt_of_le hg
    · rw [Nat.sub_self]
      exact BitVec.extractLsb'_append_eq_right
    · have hidx : 4 * (n + 1 + 1) - 4 * g - 4 = 4 * (n + 1) - 4 * g := by omega
      calc (joinNibbles nib (n + 1)).extractLsb' (4 * (n + 1 + 1) - 4 * g) 4
        _ = (joinNibbles nib n).extractLsb' (4 * (n + 1 + 1) - 4 * g - 4) 4 :=
          BitVec.extractLsb'_append_eq_of_le (by omega)
        _ = nib g := by rw [hidx, ih (by omega)]

theorem substitute_eq_joinNibbles (y : BitVec 48) : substitute y = joinNibbles (fun g => sbox g (group y g)) 7 := rfl

theorem extractLsb'_substitute (y : BitVec 48) {g : Nat} (h1 : 1 ≤ g) (h8 : g ≤ 8) :
    (substitute y).extractLsb' (32 - 4 * g) 4 = sbox g (group y g) := by
  rw [substitute_eq_joinNibbles]
  exact extractLsb'_joinNibbles _ h1 h8

/-- F sees its operands only through the mix. -/
theorem roundF_congr {r r' : Half} {k k' : Subkey} (h : expandMix r k = expandMix r' k') : roundF r k = roundF r' k' := by
  rw [roundF, h, roundF]

/-- Settles O28: the value given to P is `substitute` of the mix, whose nibbles `extractLsb'_substitute` reads; `roundF_congr`
is the dependence through the mix, and the two values stated are computed. -/
theorem roundFunctionSteps : Obligations.RoundFunctionSteps :=
  ⟨fun r k => ⟨substitute (expandMix r k), rfl, fun _ => extractLsb'_substitute _⟩, fun _ _ _ _ => roundF_congr,
    by decide +kernel, by decide +kernel⟩

end Sys2Proof.Machine
end

section
/-! PROOFS. The sixteen rounds undone by those of the other direction, and the commands that run them on DIN: the
statements of 43_block_core.md. -/

namespace Sys2Proof

/-- The direction that undoes a direction (43_block_core.md R167). -/
def Dir.opposite : Dir → Dir
  | .enc => .dec
  | .dec => .enc

@[simp] theorem Dir.opposite_enc : Dir.enc.opposite = .dec := rfl
@[simp] theorem Dir.opposite_dec : Dir.dec.opposite = .enc := rfl

namespace Machine

/-! ### One round and its inverse (R162) -/

/-- The two halves exchanged, as step 3 does before FP (43_block_core.md R163). -/
def Halves.swap (h : Halves) : Halves :=
  { l := h.r, r := h.l }

@[simp] theorem Halves.swap_l (h : Halves) : h.swap.l = h.r := rfl
@[simp] theorem Halves.swap_r (h : Halves) : h.swap.r = h.l := rfl
@[simp] theorem Halves.swap_swap (h : Halves) : h.swap.swap = h := rfl

/-- A round is undone by the same round between two exchanges, whatever F is: F meets the same half both times, and
exclusive or with its value cancels. -/
theorem Halves.round_swap_round (h : Halves) (k : Subkey) : (h.round k).swap.round k = h.swap := by
  simp [Halves.round, Halves.swap]

/-- The other direction takes the subkeys from the other end. -/
theorem roundKey_opposite (dir : Dir) (k : Subkeys) {n : Nat} (hn : n < 16) :
    roundKey dir.opposite k (n + 1) = roundKey dir k (16 - n) := by
  cases dir with
  | enc => exact congrArg (subkeyAt k) (by omega)
  | dec => exact congrArg (subkeyAt k) (by omega)

/-! ### IP at the start and FP at the end (R161, R164) -/

theorem permute_tableIP_tableFP (v : Block) : permute 64 tableIP (permute 64 tableFP v) = v := by
  obtain ⟨-, -, h⟩ := finalPermutationInvertsInitial
  exact h v

theorem permute_tableFP_tableIP (v : Block) : permute 64 tableFP (permute 64 tableIP v) = v := by
  obtain ⟨-, h, -⟩ := finalPermutationInvertsInitial
  exact h v

theorem halvesInit_output (h : Halves) : halvesInit h.output = h.swap := by
  have hl : (h.r ++ h.l).extractLsb' 32 32 = h.r := BitVec.extractLsb'_append_eq_left
  have hr : (h.r ++ h.l).extractLsb' 0 32 = h.l := BitVec.extractLsb'_append_eq_right
  rw [halvesInit, Halves.output, permute_tableIP_tableFP]
  exact congrArg₂ Halves.mk hl hr

theorem halvesInit_append (b : Block) : (halvesInit b).l ++ (halvesInit b).r = permute 64 tableIP b :=
  (BitVec.extractLsb'_append_extractLsb'_eq_extractLsb' rfl).trans BitVec.extractLsb'_eq_self

theorem output_swap_halvesInit (b : Block) : (halvesInit b).swap.output = b := by
  rw [Halves.output, Halves.swap_l, Halves.swap_r, halvesInit_append, permute_tableFP_tableIP]

/-! ### The two directions (R167, R168, R170) -/

/-- The other direction, run on the result, meets the halves of the first in the opposite order and exchanged. -/
theorem halvesAfter_opposite_crypt (dir : Dir) (k : Subkeys) (b : Block) {n : Nat} (hn : n ≤ 16) :
    halvesAfter dir.opposite k (crypt dir k b) n = (halvesAfter dir k b (16 - n)).swap := by
  induction n with
  | zero => exact halvesInit_output _
  | succ n ih =>
    have hidx : 16 - n = 16 - (n + 1) + 1 := by omega
    calc halvesAfter dir.opposite k (crypt dir k b) (n + 1)
        = (halvesAfter dir k b (16 - n)).swap.round (roundKey dir k (16 - n)) := by
          rw [halvesAfter, ih (by omega), roundKey_opposite dir k hn]
      _ = (halvesAfter dir k b (16 - (n + 1))).swap := by
          rw [hidx, halvesAfter, Halves.round_swap_round]

theorem crypt_opposite_crypt (dir : Dir) (k : Subkeys) (b : Block) : crypt dir.opposite k (crypt dir k b) = b := by
  rw [crypt, halvesAfter_opposite_crypt dir k b le_rfl]
  exact output_swap_halvesInit b

theorem crypt_dec_crypt_enc (k : Subkeys) (b : Block) : crypt .dec k (crypt .enc k b) = b :=
  crypt_opposite_crypt .enc k b

theorem crypt_enc_crypt_dec (k : Subkeys) (b : Block) : crypt .enc k (crypt .dec k b) = b :=
  crypt_opposite_crypt .dec k b

/-- Settles O30: `crypt_opposite_crypt` in each direction, and a function with a two-sided inverse is a bijection. -/
theorem cryptRoundTrip : Obligations.CryptRoundTrip := fun k b =>
  ⟨crypt_dec_crypt_enc k b, crypt_enc_crypt_dec k b,
    Function.bijective_iff_has_inverse.mpr ⟨crypt .dec k, crypt_dec_crypt_enc k, crypt_enc_crypt_dec k⟩,
    Function.bijective_iff_has_inverse.mpr ⟨crypt .enc k, crypt_enc_crypt_dec k, crypt_dec_crypt_enc k⟩⟩

/-- Settles O31: the left and the right half of `halvesAfter_opposite_crypt` for an encryption. -/
theorem decryptionMirrorsEncryption : Obligations.DecryptionMirrorsEncryption := fun k b _ hn =>
  have hmirror := halvesAfter_opposite_crypt .enc k b hn
  ⟨congrArg Halves.l hmirror, congrArg Halves.r hmirror⟩

/-- Settles O32: the encryption is computed; the decryption follows from it by `crypt_dec_crypt_enc`. -/
theorem knownAnswer : Obligations.KnownAnswer := by
  have henc : crypt .enc (keySchedule 0x133457799BBCDFF1#64) 0x0123456789ABCDEF#64 = 0x85E813540F0AB405#64 := by
    decide +kernel
  refine ⟨henc, ?_⟩
  rw [← henc]
  exact crypt_dec_crypt_enc _ _

/-! ### ENCB and DECB (R165, R166) -/

theorem exec_encb (s : State) : exec .encb s = blockCommand .enc s := rfl

theorem exec_decb (s : State) : exec .decb s = blockCommand .dec s := rfl

theorem blockCommand_of_kvalid (dir : Dir) {s : State} (hk : s.status.kvalid = true) : blockCommand dir s = .next
    { s with regs := { s.regs with dout := crypt dir s.regs.k s.regs.din }, status := s.status.completed } := by
  rcases blockCommand_cases dir s with ⟨hk', -⟩ | ⟨-, e⟩
  · simp [hk] at hk'
  · exact e

theorem blockCommand_of_not_kvalid (dir : Dir) {s : State} (hk : s.status.kvalid = false) :
    blockCommand dir s = .next (s.reject .nokey) := by
  rcases blockCommand_cases dir s with ⟨-, e⟩ | ⟨hk', -⟩
  · exact e
  · simp [hk] at hk'

/-- A completion and its frame, read off the next state. -/
theorem blockCommand_completes (dir : Dir) {s : State} (hk : s.status.kvalid = true) :
    ∃ t, blockCommand dir s = .next t ∧ t.regs.dout = crypt dir s.regs.k s.regs.din ∧
      t.status.lasterr = 0#3 ∧ t.status.kvalid = true ∧ (∀ c, t.status.sticky c = s.status.sticky c) ∧
      t = { s with regs := { s.regs with dout := t.regs.dout }, status := t.status } :=
  ⟨_, blockCommand_of_kvalid dir hk, rfl, Status.lasterr_completed _, (Status.kvalid_completed _).trans hk,
    Status.sticky_completed _, rfl⟩

/-- Settles O33: ENCB is the block command that encrypts. -/
theorem encbEncryptsDin : Obligations.EncbEncryptsDin := by
  simp only [Obligations.EncbEncryptsDin, exec_encb]
  exact ⟨fun _ => blockCommand_completes .enc, fun _ => blockCommand_of_not_kvalid .enc, decode_encode .encb⟩

/-- Settles O34: DECB is the block command that decrypts. -/
theorem decbDecryptsDin : Obligations.DecbDecryptsDin := by
  simp only [Obligations.DecbDecryptsDin, exec_decb]
  exact ⟨fun _ => blockCommand_completes .dec, fun _ => blockCommand_of_not_kvalid .dec, decode_encode .decb⟩

/-- The first command keeps KVALID and the context, so the second completes too, and `crypt_opposite_crypt` gives its
DOUT. -/
theorem blockCommand_opposite_returns (dir : Dir) {s : State} (hk : s.status.kvalid = true) :
    ∃ t u, blockCommand dir s = .next t ∧
      blockCommand dir.opposite { t with regs := { t.regs with din := t.regs.dout } } = .next u ∧
      u.regs.dout = s.regs.din :=
  ⟨_, _, blockCommand_of_kvalid dir hk, blockCommand_of_kvalid dir.opposite ((Status.kvalid_completed _).trans hk),
    crypt_opposite_crypt dir s.regs.k s.regs.din⟩

/-- Settles O35: `blockCommand_opposite_returns` from each direction. -/
theorem encbThenDecbReturnsTheBlock : Obligations.EncbThenDecbReturnsTheBlock := by
  simp only [Obligations.EncbThenDecbReturnsTheBlock, exec_encb, exec_decb]
  exact fun s hk => ⟨blockCommand_opposite_returns .enc hk, blockCommand_opposite_returns .dec hk⟩

end Machine
end Sys2Proof
end

section
/-! PROOFS. The functions of the chaining modes on sequences of blocks, said once for every block function; what an accepted
buffer command leaves, block by block; and from these the statements of 44_chaining_modes.md. -/

namespace Sys2Proof.Machine

/-! ### A block function along a sequence of blocks (R185) -/

/-- The blocks that a block function writes for a sequence of blocks read, CHAIN starting at v. -/
def modeBlocks (f : BlockFn) : Block → List Block → List Block
  | _, []      => []
  | v, x :: xs => (f v x).1 :: modeBlocks f (f v x).2 xs

/-- CHAIN after a sequence of blocks read, starting at v. -/
def modeChain (f : BlockFn) (v : Block) (xs : List Block) : Block :=
  xs.foldl (fun c x => (f c x).2) v

theorem modeBlocks_ecbBlock (dir : Dir) (k : Subkeys) (v : Block) (xs : List Block) :
    modeBlocks (ecbBlock dir k) v xs = ecbBlocks dir k xs := by
  induction xs with
  | nil => rfl
  | cons x xs ih => exact congrArg (crypt dir k x :: ·) ih

theorem modeBlocks_cbcEncBlock (k : Subkeys) (v : Block) (xs : List Block) :
    modeBlocks (cbcEncBlock k) v xs = cbcEncBlocks k v xs := by
  induction xs generalizing v with
  | nil => rfl
  | cons x xs ih => exact congrArg (crypt .enc k (x ^^^ v) :: ·) (ih _)

theorem modeBlocks_cbcDecBlock (k : Subkeys) (v : Block) (xs : List Block) :
    modeBlocks (cbcDecBlock k) v xs = cbcDecBlocks k v xs := by
  induction xs generalizing v with
  | nil => rfl
  | cons x xs ih => exact congrArg ((crypt .dec k x ^^^ v) :: ·) (ih x)

theorem modeBlocks_append (f : BlockFn) (v : Block) (xs ys : List Block) :
    modeBlocks f v (xs ++ ys) = modeBlocks f v xs ++ modeBlocks f (modeChain f v xs) ys := by
  induction xs generalizing v with
  | nil => rfl
  | cons x xs ih => exact congrArg ((f v x).1 :: ·) (ih _)

theorem modeChain_concat (f : BlockFn) (v : Block) (xs : List Block) (x : Block) :
    modeChain f v (xs ++ [x]) = (f (modeChain f v xs) x).2 := by
  simp [modeChain]

/-- CBC encryption carries the last block written (44_chaining_modes.md R194). -/
theorem modeChain_cbcEncBlock (k : Subkeys) (v : Block) (xs : List Block) :
    modeChain (cbcEncBlock k) v xs = (cbcEncBlocks k v xs).getLastD v := by
  induction xs generalizing v with
  | nil => rfl
  | cons x xs ih =>
    rw [cbcEncBlocks, List.getLastD_cons]
    exact ih _

/-- CBC decryption carries the last block read (44_chaining_modes.md R194). -/
theorem modeChain_cbcDecBlock (k : Subkeys) (v : Block) (xs : List Block) :
    modeChain (cbcDecBlock k) v xs = xs.getLastD v := by
  induction xs generalizing v with
  | nil => rfl
  | cons x xs ih =>
    rw [List.getLastD_cons]
    exact ih x

/-- From the CHAIN that f started from and the block f wrote, g writes the block f read and leaves the CHAIN f left. -/
def Undoes (g f : BlockFn) : Prop :=
  ∀ c x, g c (f c x).1 = (x, (f c x).2)

theorem Undoes.modeBlocks_modeBlocks {g f : BlockFn} (h : Undoes g f) (v : Block) (xs : List Block) :
    modeBlocks g v (modeBlocks f v xs) = xs := by
  induction xs generalizing v with
  | nil => rfl
  | cons x xs ih => rw [modeBlocks, modeBlocks, h, ih]

theorem undoes_ecbBlock (dir : Dir) (k : Subkeys) : Undoes (ecbBlock dir.opposite k) (ecbBlock dir k) := fun c x =>
  congrArg (·, c) (crypt_opposite_crypt dir k x)

theorem undoes_cbcDec_cbcEnc (k : Subkeys) : Undoes (cbcDecBlock k) (cbcEncBlock k) := fun c x => by
  simp only [cbcDecBlock, cbcEncBlock, crypt_dec_crypt_enc, BitVec.xor_assoc, BitVec.xor_self, BitVec.xor_zero]

theorem undoes_cbcEnc_cbcDec (k : Subkeys) : Undoes (cbcEncBlock k) (cbcDecBlock k) := fun c x => by
  simp only [cbcDecBlock, cbcEncBlock, crypt_enc_crypt_dec, BitVec.xor_assoc, BitVec.xor_self, BitVec.xor_zero]

/-! ### The mode functions (R188, R191, R192, R194) -/

theorem ecbBlocks_opposite_ecbBlocks (dir : Dir) (k : Subkeys) (xs : List Block) :
    ecbBlocks dir.opposite k (ecbBlocks dir k xs) = xs := by
  simpa only [modeBlocks_ecbBlock] using (undoes_ecbBlock dir k).modeBlocks_modeBlocks 0#64 xs

/-- Settles O51: ECB maps CRYPT over the blocks; the inverses are `ecbBlocks_opposite_ecbBlocks` in each direction. -/
theorem ecbFunctionProperties : Obligations.EcbFunctionProperties := by
  have hget (dir : Dir) (k : Subkeys) (xs : List Block) (j : Nat) :
      (ecbBlocks dir k xs)[j]? = (xs[j]?).map (crypt dir k) := List.getElem?_map
  refine ⟨fun dir k xs i j hij => ?_, hget, fun k xs =>
    ⟨ecbBlocks_opposite_ecbBlocks .enc k xs, ecbBlocks_opposite_ecbBlocks .dec k xs⟩⟩
  rw [hget, hget, hij]

/-- Settles O52: each block function of CBC undoes the other. -/
theorem cbcRoundTrip : Obligations.CbcRoundTrip := by
  intro k v xs
  have hdec := (undoes_cbcDec_cbcEnc k).modeBlocks_modeBlocks v xs
  have henc := (undoes_cbcEnc_cbcDec k).modeBlocks_modeBlocks v xs
  simp only [modeBlocks_cbcEncBlock, modeBlocks_cbcDecBlock] at hdec henc
  exact ⟨hdec, henc⟩

/-- Two different ciphertext blocks, followed by one plaintext, differ in every ciphertext block: what CRYPT encrypts next
differs again, and CRYPT is injective. -/
theorem cbcEncBlocks_ne_of_chain_ne (k : Subkeys) {y y' : Block} (h : y ≠ y') (xs : List Block) {j : Nat}
    (hj : j < xs.length + 1) : (y :: cbcEncBlocks k y xs)[j]? ≠ (y' :: cbcEncBlocks k y' xs)[j]? := by
  induction xs generalizing y y' j with
  | nil =>
    obtain rfl : j = 0 := by simpa using hj
    simpa using h
  | cons x xs ih =>
    cases j with
    | zero => simpa using h
    | succ j =>
      have hnext : crypt .enc k (x ^^^ y) ≠ crypt .enc k (x ^^^ y') := fun he =>
        h ((BitVec.xor_right_inj x).mp (Function.LeftInverse.injective (crypt_dec_crypt_enc k) he))
      exact ih hnext (Nat.lt_of_succ_lt_succ hj)

/-- Settles O53: the first ciphertext blocks differ, and `cbcEncBlocks_ne_of_chain_ne` carries it on. -/
theorem cbcDiffusion : Obligations.CbcDiffusion := by
  intro k v x x' xs hx j hj
  have hfirst : crypt .enc k (x ^^^ v) ≠ crypt .enc k (x' ^^^ v) := fun he =>
    hx ((BitVec.xor_left_inj v).mp (Function.LeftInverse.injective (crypt_dec_crypt_enc k) he))
  exact cbcEncBlocks_ne_of_chain_ne k hfirst xs hj

/-- Settles O54: `modeBlocks_append`, with the CHAIN that each direction carries. -/
theorem cbcMessagesSplit : Obligations.CbcMessagesSplit := by
  intro k v xs ys
  rw [← modeChain_cbcEncBlock, ← modeChain_cbcDecBlock]
  simp only [← modeBlocks_cbcEncBlock, ← modeBlocks_cbcDecBlock]
  exact ⟨modeBlocks_append _ v xs ys, modeBlocks_append _ v xs ys⟩

/-! ### The ends of a buffer command (R181) -/

/-- What an accepted buffer command leaves: the memory of its block loop, and a completion. -/
def State.afterBuffer (s : State) (f : BlockFn) : State :=
  { s with mem := (runAfter f s s.numBlocks).mem, status := s.status.completed }

theorem bufferCommand_eq_afterBuffer {s : State} (h : BufferAccepted s) (f : BlockFn) :
    bufferCommand f s = .next (s.afterBuffer f) :=
  bufferCommand_of_accepted h f

/-- A completion of a buffer command in the fields of STATUS (60_exceptions.md R225). -/
theorem BufferAccepted.afterBuffer_status {s : State} (h : BufferAccepted s) (f : BlockFn) :
    (s.afterBuffer f).status.lasterr = 0#3 ∧ (s.afterBuffer f).status.kvalid = true ∧
      ∀ c, (s.afterBuffer f).status.sticky c = s.status.sticky c :=
  ⟨Status.lasterr_completed _, (Status.kvalid_completed _).trans h.1, Status.sticky_completed _⟩

/-- A buffer command with a context and a bad length is rejected LEN (44_chaining_modes.md R181). -/
theorem bufferCommand_of_not_lengthFits {s : State} (hk : s.status.kvalid = true) (hl : ¬ LengthFits s) (f : BlockFn) :
    bufferCommand f s = .next (s.reject .len) := by
  obtain ⟨-, hlen, -, -⟩ := bufferCheck_spec s
  rw [bufferCommand, hlen hk hl]

/-- What a buffer command answers where a check fails, in the order of 44_chaining_modes.md R181; and its word decodes to
it. -/
theorem exec_buffer_rejections {i : Instr} (hi : i ∈ bufferInstrs) :
    (∀ s : State, s.status.kvalid = false → exec i s = .next (s.reject .nokey)) ∧
    (∀ s : State, s.status.kvalid = true → ¬ LengthFits s → exec i s = .next (s.reject .len)) ∧
    (∀ s : State, s.status.kvalid = true → LengthFits s → ¬ BuffersFit s → exec i s = .next (s.reject .addr)) ∧
    decode (encode i) = .ok i := by
  refine ⟨fun s => exec_of_no_context (ne_init_of_mem_bufferInstrs hi), fun s hk hl => ?_, fun s hk hl hb => ?_,
    decode_encode i⟩
  · obtain ⟨f, hf, -⟩ := exec_buffer hi s
    exact hf.trans (bufferCommand_of_not_lengthFits hk hl f)
  · obtain ⟨f, hf, -⟩ := exec_buffer hi s
    exact hf.trans (bufferCommand_of_not_buffersFit hk hl hb f)

/-- Settles O40: the memories are those of the block loop, whose steps are the recurrence. -/
theorem ecbeEncryptsTheBuffer : Obligations.EcbeEncryptsTheBuffer :=
  ⟨fun s h => ⟨_, fun j => (runAfter (ecbBlock .enc s.regs.k) s j).mem, bufferCommand_eq_afterBuffer h _, rfl,
      fun _ _ => rfl, rfl, h.afterBuffer_status _⟩,
    exec_buffer_rejections (by decide)⟩

/-- Settles O41: as ECBE, with the block loop that decrypts. -/
theorem ecbdDecryptsTheBuffer : Obligations.EcbdDecryptsTheBuffer :=
  ⟨fun s h => ⟨_, fun j => (runAfter (ecbBlock .dec s.regs.k) s j).mem, bufferCommand_eq_afterBuffer h _, rfl,
      fun _ _ => rfl, rfl, h.afterBuffer_status _⟩,
    exec_buffer_rejections (by decide)⟩

/-- Settles O42: the memories and the chain are those of the block loop, whose steps are the recurrence. -/
theorem cbceChainsTheBuffer : Obligations.CbceChainsTheBuffer :=
  ⟨fun s h => ⟨_, fun j => (runAfter (cbcEncBlock s.regs.k) s j).mem, fun j => (runAfter (cbcEncBlock s.regs.k) s j).chain,
      bufferCommand_eq_afterBuffer h _, rfl, rfl, fun _ _ => ⟨rfl, rfl⟩, rfl, h.afterBuffer_status _⟩,
    exec_buffer_rejections (by decide)⟩

/-- Settles O43: as CBCE, with the block loop that decrypts. -/
theorem cbcdUnchainsTheBuffer : Obligations.CbcdUnchainsTheBuffer :=
  ⟨fun s h => ⟨_, fun j => (runAfter (cbcDecBlock s.regs.k) s j).mem, fun j => (runAfter (cbcDecBlock s.regs.k) s j).chain,
      bufferCommand_eq_afterBuffer h _, rfl, rfl, fun _ _ => ⟨rfl, rfl⟩, rfl, h.afterBuffer_status _⟩,
    exec_buffer_rejections (by decide)⟩

/-- With no whole block both buffers pass the range check, wherever they start (20_memory.md R56). -/
theorem buffersFit_of_numBlocks_eq_zero {s : State} (h : s.numBlocks = 0) : BuffersFit s :=
  (buffersFit_iff_of_numBlocks s).mpr (.inl (by rw [h]))

/-- Settles O46: either condition passes the length check and gives NB = 0, so the block loop is empty. -/
theorem noBlocksTouchNothing : Obligations.NoBlocksTouchNothing := by
  intro i hi s hk hlen
  obtain ⟨f, hf, -⟩ := exec_buffer hi s
  have hfits : LengthFits s := hlen.imp (fun h => by rw [h]; rfl) And.left
  have hzero : s.numBlocks = 0 := by
    rcases hlen with h | ⟨-, h⟩
    · rw [State.numBlocks, h]; rfl
    · exact Nat.div_eq_of_lt h
  rw [hf, bufferCommand_eq_afterBuffer ⟨hk, hfits, buffersFit_of_numBlocks_eq_zero hzero⟩, State.afterBuffer, hzero]
  rfl

/-! ### The length policies (R183) -/

/-- The block loop starts from IV and the memory and depends on SRC and DST, and on nothing else of the state. -/
theorem runAfter_congr (f : BlockFn) {s s' : State} (hiv : s.regs.iv = s'.regs.iv) (hmem : s.mem = s'.mem)
    (hsrc : s.regs.src = s'.regs.src) (hdst : s.regs.dst = s'.regs.dst) (n : Nat) : runAfter f s n = runAfter f s' n := by
  induction n with
  | zero => rw [runAfter, runAfter, hiv, hmem]
  | succ n ih => simp only [runAfter, ih, State.srcBlock, State.dstBlock, hsrc, hdst]

/-- s with LEN rounded down to whole blocks. -/
def State.roundLen (s : State) : State :=
  { s with regs := { s.regs with len := BitVec.ofNat 64 (8 * (s.regs.len.toNat / 8)) } }

theorem State.roundLen_len (s : State) : s.roundLen.regs.len.toNat = 8 * s.numBlocks := by
  have hlt := s.regs.len.isLt
  simp only [State.roundLen, State.numBlocks, BitVec.toNat_ofNat]
  omega

@[simp] theorem State.roundLen_numBlocks (s : State) : s.roundLen.numBlocks = s.numBlocks := by
  rw [State.numBlocks, State.roundLen_len, Nat.mul_div_cancel_left _ (by decide)]

theorem BufferAccepted.roundLen {s : State} (h : BufferAccepted s) : BufferAccepted s.roundLen := by
  obtain ⟨hk, -, hb⟩ := h
  refine ⟨hk, .inl (by rw [State.roundLen_len, Nat.mul_mod_right]), ?_⟩
  rw [BuffersFit, State.roundLen_numBlocks]
  exact hb

/-- An accepted command does the same after LEN is rounded down. -/
theorem State.afterBuffer_roundLen (s : State) (f : BlockFn) : s.roundLen.afterBuffer f = (s.afterBuffer f).roundLen := by
  rw [State.afterBuffer, State.roundLen_numBlocks, runAfter_congr f (s := s.roundLen) (s' := s) rfl rfl rfl rfl]
  rfl

/-- Nothing from the end of the last whole output block on is written. -/
theorem State.afterBuffer_read_tail (s : State) (f : BlockFn) {a : Nat} (ha : s.dstBlock s.numBlocks ≤ a) :
    (s.afterBuffer f).mem.read a = s.mem.read a :=
  runAfter_read_outside f s _ a fun j hj => by
    simp only [State.dstBlock] at ha ⊢
    omega

/-- s under another length policy. -/
def State.withLenPolicy (s : State) (p : LenPolicy) : State :=
  { s with config := { s.config with lenPolicy := p } }

/-- For a multiple of 8 a buffer command ends alike under every policy: the check on LEN passes, and no other reads the
policy. -/
theorem bufferCommand_withLenPolicy {f : BlockFn} {s t : State} (hlen : s.regs.len.toNat % 8 = 0) (p : LenPolicy)
    (h : bufferCommand f s = .next t) :
    bufferCommand f (s.withLenPolicy p) = .next { t with config := (s.withLenPolicy p).config } := by
  have hl : LengthFits (s.withLenPolicy p) := .inl hlen
  rcases bufferCommand_cases f s with ⟨hk, e⟩ | ⟨-, hl', -⟩ | ⟨hk, -, hb, e⟩ | ⟨⟨hk, -, hb⟩, e⟩
  · obtain rfl := Host.Outcome.next.inj (e.symm.trans h)
    obtain ⟨hnokey, -⟩ := bufferCheck_spec (s.withLenPolicy p)
    rw [bufferCommand, hnokey hk]
    rfl
  · exact absurd (.inl hlen) hl'
  · obtain rfl := Host.Outcome.next.inj (e.symm.trans h)
    exact bufferCommand_of_not_buffersFit (s := s.withLenPolicy p) hk hl hb f
  · obtain rfl := Host.Outcome.next.inj (e.symm.trans h)
    rw [bufferCommand_eq_afterBuffer (s := s.withLenPolicy p) ⟨hk, hl, hb⟩, State.afterBuffer,
      runAfter_congr f (s := s.withLenPolicy p) (s' := s) rfl rfl rfl rfl]
    rfl

/-- Settles O47: the length check rejects; `State.afterBuffer_roundLen` and `State.afterBuffer_read_tail`; and
`bufferCommand_withLenPolicy`. -/
theorem lengthPolicy : Obligations.LengthPolicy := by
  intro i hi s hk
  refine ⟨fun hp hlen => ?_, fun hp hb => ?_, fun hlen p t h => ?_⟩
  · obtain ⟨-, hreject, -⟩ := exec_buffer_rejections hi
    exact hreject s hk ((not_lengthFits s).mp ⟨hlen, hp⟩)
  · obtain ⟨f, hf, hf', -⟩ := exec_buffer_pair hi (s := s) (s' := s.roundLen) rfl fun _ => rfl
    have hacc : BufferAccepted s := ⟨hk, .inr hp, hb⟩
    refine ⟨_, hf.trans (bufferCommand_eq_afterBuffer hacc f), Status.lasterr_completed _, ?_,
      fun a ha => s.afterBuffer_read_tail f ha⟩
    rw [bufferCommand_eq_afterBuffer hacc.roundLen, State.afterBuffer_roundLen] at hf'
    exact hf'
  · obtain ⟨f, hf, hf', -⟩ := exec_buffer_pair hi (s := s) (s' := s.withLenPolicy p) rfl fun _ => rfl
    exact hf'.trans (bufferCommand_withLenPolicy hlen p (hf.symm.trans h))

/-! ### The output buffer outside the overlap hazard (R185, R60) -/

/-- The first n blocks of the input buffer, as they are at Issue. -/
def State.firstBlocks (s : State) (n : Nat) : List Block :=
  (List.range n).map fun j => s.mem.readBlock (s.srcBlock j)

theorem State.firstBlocks_succ (s : State) (n : Nat) :
    s.firstBlocks (n + 1) = s.firstBlocks n ++ [s.mem.readBlock (s.srcBlock n)] := by
  simp [State.firstBlocks, List.range_succ]

theorem State.firstBlocks_numBlocks (s : State) : s.firstBlocks s.numBlocks = s.inputBlocks s.mem := rfl

/-- CHAIN in the loop is that of the blocks at Issue. -/
theorem runAfter_chain (f : BlockFn) {s : State} (h : HazardFree s) {n : Nat} (hn : n ≤ s.numBlocks) :
    (runAfter f s n).chain = modeChain f s.regs.iv (s.firstBlocks n) := by
  induction n with
  | zero => rfl
  | succ n ih =>
    rw [State.firstBlocks_succ, modeChain_concat, ← ih (by omega), ← runAfter_readBlock_src f s h le_rfl hn]
    rfl

/-- The first n blocks stored are what the block function makes of the first n at Issue: the next one comes behind them,
and `runAfter_chain` is the CHAIN it starts from. -/
theorem runAfter_outputBlocks (f : BlockFn) {s : State} (h : HazardFree s) {n : Nat} (hn : n ≤ s.numBlocks) :
    (List.range n).map (fun j => (runAfter f s n).mem.readBlock (s.dstBlock j)) =
      modeBlocks f s.regs.iv (s.firstBlocks n) := by
  induction n with
  | zero => rfl
  | succ n ih =>
    have hkept : ∀ j ∈ List.range n, (runAfter f s (n + 1)).mem.readBlock (s.dstBlock j) =
        (runAfter f s n).mem.readBlock (s.dstBlock j) := fun j hj => by
      have hj := List.mem_range.mp hj
      rw [runAfter_readBlock_dst f s (by omega), runAfter_readBlock_dst f s hj]
    rw [List.range_succ, List.map_append, List.map_congr_left hkept, ih (by omega), State.firstBlocks_succ,
      modeBlocks_append, List.map_singleton, runAfter_readBlock_dst f s (Nat.lt_succ_self n),
      runAfter_chain f h (by omega), runAfter_readBlock_src f s h le_rfl hn]
    rfl

/-- Outside the overlap hazard the output buffer holds what the block function makes of the input buffer at Issue. -/
theorem outputBlocks_afterBuffer (f : BlockFn) {s : State} (h : HazardFree s) :
    s.outputBlocks (s.afterBuffer f).mem = modeBlocks f s.regs.iv (s.inputBlocks s.mem) := by
  rw [← State.firstBlocks_numBlocks, ← runAfter_outputBlocks f h le_rfl]
  rfl

/-- The loop stores no byte outside the output buffer. -/
theorem State.afterBuffer_read_outside (s : State) (f : BlockFn) {a : Nat} (ha : ¬ InOutput s a) :
    (s.afterBuffer f).mem.read a = s.mem.read a :=
  runAfter_read_outside f s _ a fun j hj hc => ha ⟨j, hj, hc⟩

/-- Each buffer command runs the block function of its mode. -/
theorem exec_buffer_mode {i : Instr} (hi : i ∈ bufferInstrs) (s : State) : ∃ f : BlockFn, exec i s = bufferCommand f s ∧
    ∀ xs, modeFunction i s.regs.k s.regs.iv xs = modeBlocks f s.regs.iv xs := by
  obtain ⟨f, hf, ⟨rfl, rfl⟩ | ⟨rfl, rfl⟩ | ⟨rfl, rfl⟩ | ⟨rfl, rfl⟩⟩ := exec_buffer hi s
  · exact ⟨_, hf, fun xs => (modeBlocks_ecbBlock .enc s.regs.k s.regs.iv xs).symm⟩
  · exact ⟨_, hf, fun xs => (modeBlocks_ecbBlock .dec s.regs.k s.regs.iv xs).symm⟩
  · exact ⟨_, hf, fun xs => (modeBlocks_cbcEncBlock s.regs.k s.regs.iv xs).symm⟩
  · exact ⟨_, hf, fun xs => (modeBlocks_cbcDecBlock s.regs.k s.regs.iv xs).symm⟩

/-- Settles O48: `outputBlocks_afterBuffer` for the mode's block function; the input buffer lies outside what is stored. -/
theorem bufferCommandsComputeTheirMode : Obligations.BufferCommandsComputeTheirMode := by
  intro i hi s hacc hfree
  obtain ⟨f, hf, hmode⟩ := exec_buffer_mode hi s
  refine ⟨_, hf.trans (bufferCommand_eq_afterBuffer hacc f), Status.lasterr_completed _, ?_, fun hdisj => ?_⟩
  · rw [hmode, outputBlocks_afterBuffer f hfree]
  · refine List.map_congr_left fun j hj => Memory.readBlock_congr fun t ht => ?_
    exact s.afterBuffer_read_outside f (hdisj _ ⟨j, List.mem_range.mp hj, by omega, by omega⟩)

/-! ### In place (R188, R191) -/

/-- Two memories that hold one block at an address hold its eight bytes there. -/
theorem Memory.read_eq_of_readBlock_eq {m m' : Memory} {a x : Nat} (h : m.readBlock a = m'.readBlock a) (hx : a ≤ x)
    (hx' : x < a + 8) : m.read x = m'.read x := by
  obtain ⟨hbyte, -⟩ := blockReadIsBigEndian
  obtain ⟨t, rfl⟩ := Nat.exists_eq_add_of_le hx
  rw [← hbyte m a t (by omega), ← hbyte m' a t (by omega), h]

/-- In place, what a second loop undoes is as it was: the blocks by `Undoes.modeBlocks_modeBlocks`, and the bytes outside
them because neither loop stores any. -/
theorem afterBuffer_afterBuffer_mem {g f : BlockFn} (hgf : Undoes g f) {s : State} (hwf : s.mem.wf)
    (hsd : s.regs.src = s.regs.dst) : ((s.afterBuffer f).afterBuffer g).mem = s.mem := by
  have hfree : HazardFree s := fun h => by rw [hsd] at h; omega
  have hio : ∀ m, s.inputBlocks m = s.outputBlocks m := fun m => by
    simp only [State.inputBlocks, State.outputBlocks, State.srcBlock, State.dstBlock, hsd]
  have hblocks : s.outputBlocks ((s.afterBuffer f).afterBuffer g).mem = s.outputBlocks s.mem :=
    calc s.outputBlocks ((s.afterBuffer f).afterBuffer g).mem
        = modeBlocks g s.regs.iv (s.inputBlocks (s.afterBuffer f).mem) :=
          outputBlocks_afterBuffer (s := s.afterBuffer f) g hfree
      _ = s.outputBlocks s.mem := by
          rw [hio, outputBlocks_afterBuffer f hfree, hgf.modeBlocks_modeBlocks, hio]
  refine Memory.eq_of_read_eq (runAfter_wf g _ _ (runAfter_wf f s _ hwf)) hwf fun a => ?_
  by_cases ha : InOutput s a
  · obtain ⟨j, hj, h1, h2⟩ := ha
    exact Memory.read_eq_of_readBlock_eq (List.map_inj_left.mp hblocks j (List.mem_range.mpr hj)) h1 h2
  · exact ((s.afterBuffer f).afterBuffer_read_outside g ha).trans (s.afterBuffer_read_outside f ha)

/-- In place, a buffer command and then the one that undoes it end in the state with a completion. -/
theorem bufferCommand_undoes {g f : BlockFn} (hgf : Undoes g f) {s : State} (h : BufferAccepted s) (hwf : s.mem.wf)
    (hsd : s.regs.src = s.regs.dst) : bufferCommand g (s.afterBuffer f) = .next s.complete := by
  obtain ⟨-, hk, -⟩ := h.afterBuffer_status f
  obtain ⟨-, hl, hb⟩ := h
  rw [bufferCommand_eq_afterBuffer ⟨hk, hl, hb⟩]
  refine congrArg _ ?_
  calc (s.afterBuffer f).afterBuffer g
      = { s with mem := ((s.afterBuffer f).afterBuffer g).mem, status := s.status.completed.completed } := rfl
    _ = s.complete := by rw [afterBuffer_afterBuffer_mem hgf hwf hsd, Status.completed_completed]; rfl

/-- Settles O50: decryption undoes encryption block by block in each mode, and `bufferCommand_undoes` carries it to the
machine. -/
theorem inPlaceRoundTrip : Obligations.InPlaceRoundTrip := fun s h hwf hsd =>
  ⟨⟨_, bufferCommand_eq_afterBuffer h (ecbBlock .enc s.regs.k), bufferCommand_undoes (undoes_ecbBlock .enc _) h hwf hsd⟩,
    ⟨_, bufferCommand_eq_afterBuffer h (cbcEncBlock s.regs.k), bufferCommand_undoes (undoes_cbcDec_cbcEnc _) h hwf hsd⟩⟩

end Sys2Proof.Machine
end

section
/-! PROOFS. The two ends of a command (60_exceptions.md): what a rejection and a completion leave in STATUS, and which of
them a command comes to. -/

namespace Sys2Proof.Machine

/-- Settles O13: the fields of STATUS after `Status.rejected`; STATUS[3 + c] is the sticky flag of c. -/
theorem rejectionChangesOnlyStatus : Obligations.RejectionChangesOnlyStatus := by
  intro s c
  refine ⟨rfl, lasterr_rejected_toNat s.status c, Status.sticky_rejected_self s.status c, Status.kvalid_rejected s.status c,
    fun q hq => ?_, rfl, rfl, rfl, rfl⟩
  rw [State.reject_status, Status.sticky_rejected, beq_eq_false_iff_ne.mpr hq, Bool.or_false]

/-- A command completes (60_exceptions.md R225), or it is rejected: then it is not INIT, and with a context it is a buffer
command that is not accepted (R223). -/
theorem exec_completes_or_rejects (i : Instr) (s : State) :
    (∃ t, exec i s = .next t ∧ t.status.lasterr = 0#3 ∧ (∀ c, t.status.sticky c = s.status.sticky c) ∧
      t.status.kvalid = (s.status.kvalid || i == .init)) ∨
    ∃ c, exec i s = .next (s.reject c) ∧ i ≠ .init ∧ ¬ BufferAccepted s ∧
      (s.status.kvalid = true → i ∈ bufferInstrs) := by
  have completed (hk : s.status.kvalid = true) : s.status.completed.kvalid = (s.status.kvalid || i == .init) := by
    rw [Status.kvalid_completed, hk, Bool.true_or]
  rcases exec_cases i s with ⟨rfl, e⟩ | ⟨hi, hk, e⟩ | ⟨hk, dir, e, -⟩ | ⟨hb, -, hl, e⟩ | ⟨hb, -, -, hr, e⟩ | ⟨-, hacc, f, e⟩
  · exact .inl ⟨_, e, Status.lasterr_completedInit _, Status.sticky_completedInit _,
      (Status.kvalid_completedInit _).trans (Bool.or_true _).symm⟩
  · exact .inr ⟨.nokey, e, hi, fun ⟨h, _⟩ => (nomatch hk.symm.trans h), fun h => nomatch hk.symm.trans h⟩
  · exact .inl ⟨_, e, Status.lasterr_completed _, Status.sticky_completed _, completed hk⟩
  · exact .inr ⟨.len, e, ne_init_of_mem_bufferInstrs hb, fun ⟨_, h, _⟩ => hl h, fun _ => hb⟩
  · exact .inr ⟨.addr, e, ne_init_of_mem_bufferInstrs hb, fun ⟨_, _, h⟩ => hr h, fun _ => hb⟩
  · exact .inl ⟨_, e, Status.lasterr_completed _, Status.sticky_completed _, completed hacc.1⟩

/-- Settles O14: a next state that is no rejection is the completion of `exec_completes_or_rejects`. -/
theorem completionStatus : Obligations.CompletionStatus := by
  intro i s t h hne
  rcases exec_completes_or_rejects i s with ⟨t', e, ht'⟩ | ⟨c, e, -⟩ <;>
    obtain rfl := Host.Outcome.next.inj (e.symm.trans h)
  · exact ht'
  · exact absurd rfl (hne c)

/-- A command for which no condition of rejection holds completes (60_exceptions.md R223). -/
theorem exec_completes {i : Instr} {s : State}
    (h : i = .init ∨ (i ∉ bufferInstrs ∧ s.status.kvalid = true) ∨ BufferAccepted s) :
    ∃ t, exec i s = .next t ∧ t.status.lasterr = 0#3 := by
  rcases exec_completes_or_rejects i s with ⟨t, e, ht, -⟩ | ⟨c, -, hi, hacc, hb⟩
  · exact ⟨t, e, ht⟩
  · rcases h with h | ⟨hnb, hk⟩ | h
    · exact absurd h hi
    · exact absurd (hb hk) hnb
    · exact absurd h hacc

/-- Settles O16: an illegal word by `issueWord_of_ne_encode`, a command by what it answers where the condition holds; the
conditions speak of nothing that taking the action from the script changes. -/
theorem rejectionPriority : Obligations.RejectionPriority := by
  intro s c hact
  refine ⟨fun hnone => ?_, fun i hd hi hk => ?_, fun i hb hd hk hl => ?_, fun i hb hd hk hl hfit => ?_, fun i hd h => ?_⟩
  · refine (step_of_nextAction hact).trans (issueWord_of_ne_encode (fun i hi => ?_) s.popAction)
    exact hnone ⟨i, (decode_eq_ok_iff c i).mpr hi⟩
  · exact (step_of_issue_command hact hd).trans (exec_of_no_context hi hk)
  · obtain ⟨-, hlen, -, -⟩ := exec_buffer_rejections hb
    exact (step_of_issue_command hact hd).trans (hlen s.popAction hk hl)
  · obtain ⟨-, -, haddr, -⟩ := exec_buffer_rejections hb
    exact (step_of_issue_command hact hd).trans (haddr s.popAction hk hl hfit)
  · rw [step_of_issue_command hact hd]
    exact exec_completes (s := s.popAction) h

end Sys2Proof.Machine
end

section
/-! PROOFS. What Reset clears and what no other action clears (70_reset_and_hazards.md). -/

namespace Sys2Proof.Machine

/-- A rejection adds its cause to the sticky flags, a completion keeps them, and of the other actions only Reset writes
STATUS (60_exceptions.md R224, R225). -/
theorem HostEffect.sticky_mono {s t : State} {act : HostAction} (h : HostEffect s act t) (hact : act ≠ .reset) {c : Cause}
    (hc : s.status.sticky c = true) : t.status.sticky c = true := by
  cases h with
  | init => exact (Status.sticky_completedInit _ c).trans hc
  | rejected => rw [State.reject_status, Status.sticky_rejected, hc, Bool.true_or]
  | block | buffer => exact (Status.sticky_completed _ c).trans hc
  | written => rwa [State.writeReg_status]
  | reset => exact absurd rfl hact
  | writeIgnored | regRead | memWrite | memRead => exact hc

/-- Settles O9: a Reset step by what `resetCore` answers; for any other step KVALID by `kvalidIsSetByInitOnly`, the sticky
flags by `HostEffect.sticky_mono` of the next action. -/
theorem onlyResetClearsStatus : Obligations.OnlyResetClearsStatus := by
  refine ⟨fun s hact => ⟨_, _, step_of_nextAction hact⟩, fun s t h hreset => ⟨fun hk => ?_, fun c hc => ?_⟩⟩
  · rw [kvalidIsSetByInitOnly.1 s t h, if_neg hreset, hk, ite_self]
  · rcases step_effect h with ⟨-, rfl⟩ | ⟨act, hact, he⟩
    · exact hc
    · exact he.sticky_mono (fun ha => hreset (hact.trans (congrArg some ha))) hc

end Sys2Proof.Machine
end
